-- ==== Sys2Proof/Word.lean ====
section
/-! DEFINITION. The two widths everything is made of (00_scope.md R4, R7). Nothing here computes: every
computation stands in Decode.lean and under Machine/. -/

namespace Sys2Proof

/-- A word: 16 bits, bit 15 the most significant (00_scope.md R7). Every register, the program counter and
every memory word is one. -/
abbrev Word := BitVec 16

/-- An address: 16 bits, naming one whole 16-bit word of memory (00_scope.md R4, 20_memory.md R30). -/
abbrev Addr := BitVec 16

end Sys2Proof
end

