-- ==== Sys2Proof/Config.lean ====
section
/-! DEFINITION. The parameters of 00_scope.md R5: the types of their values, and the one parameter the spec leaves
OPEN. The values this hardware takes are `Sys2Proof.Machine.parameters` in Machine/Ops.lean. -/

namespace Sys2Proof

/-- `IMM7_EXT` (00_scope.md R5, 30_encoding.md R57, D2): how the 7-bit immediate becomes a 16-bit operand. -/
inductive Imm7Ext
  | zero
  | sign
deriving DecidableEq, Repr

/-- `PC_RANGE` (00_scope.md R5, 10_state.md R17, D3): which values a write of the program counter accepts. -/
inductive PcRange
  | full
  | programOnly
deriving DecidableEq, Repr

/-- `LUI_MODE` (00_scope.md R5, 41_arithmetic_logic.md R84, D4): whether LUI replaces the register or is or-ed in. -/
inductive LuiMode
  | overwrite
  | merge
deriving DecidableEq, Repr

/-- The parameters a rule reads (00_scope.md R5). -/
structure Config where
  imm7Ext : Imm7Ext
  pcRange : PcRange
  luiMode : LuiMode
deriving DecidableEq, Repr

/-- The bounds of a text-output window, both inclusive (`TEXT_WINDOW`, 00_scope.md R5, D19). -/
structure TextWindow where
  lo : Addr
  hi : Addr
deriving DecidableEq, Repr, Inhabited

/-- `TEXT_WINDOW`, OPEN in the spec (D19, 91_not_in_source.md N3): no rule reads it, the words in it are ordinary
memory to the core (20_memory.md R40), and nothing fixes it, so it has no body. What the spec says of it, that it is
a sub-range of the data region, is `TextWindow.wellFormed`, to be taken as a premise (log 16). -/
opaque Config.textWindow : TextWindow

end Sys2Proof
end

