-- ==== Sys2Proof/Syntax.lean ====
section
/-! DEFINITION. The instructions as syntax: the eight registers, the eight opcodes, and one constructor per row of
spec/opcode_table.json (30_encoding.md R58, R59). -/

namespace Sys2Proof

/-- A general register's index: exactly eight values (10_state.md R11, R14). -/
inductive Reg
  | r0 | r1 | r2 | r3 | r4 | r5 | r6 | r7
deriving DecidableEq, Repr

/-- The eight opcodes, which the 3-bit field exactly enumerates (30_encoding.md R51, R58). -/
inductive Opcode
  | add | addi | nand | lui | sw | lw | beq | jalr
deriving DecidableEq, Repr

/-- One instruction (30_encoding.md R59, the tagged value). It carries the fields of its format only (D8); JALR
carries its `imm7` field, which nothing reads (R59, R60, log 7). -/
inductive Instr
  /-- ADD rA, rB, rC (41_arithmetic_logic.md R81). -/
  | add (rA rB rC : Reg)
  /-- ADDI rA, rB, imm7 (41_arithmetic_logic.md R82). -/
  | addi (rA rB : Reg) (imm7 : BitVec 7)
  /-- NAND rA, rB, rC (41_arithmetic_logic.md R83). -/
  | nand (rA rB rC : Reg)
  /-- LUI rA, imm10 (41_arithmetic_logic.md R84). -/
  | lui (rA : Reg) (imm10 : BitVec 10)
  /-- SW rA, rB, imm7; rA is the value stored (42_load_store.md R91). -/
  | sw (rA rB : Reg) (imm7 : BitVec 7)
  /-- LW rA, rB, imm7 (42_load_store.md R92). -/
  | lw (rA rB : Reg) (imm7 : BitVec 7)
  /-- BEQ rA, rB, imm7 (43_control_transfer.md R100). -/
  | beq (rA rB : Reg) (imm7 : BitVec 7)
  /-- JALR rA, rB; `imm7` is the ignored field (43_control_transfer.md R101, 30_encoding.md R60). -/
  | jalr (rA rB : Reg) (imm7 : BitVec 7)
deriving DecidableEq, Repr

/-- The opcode of an instruction (30_encoding.md R58). -/
def Instr.opcode : Instr → Opcode
  | .add _ _ _ => .add
  | .addi _ _ _ => .addi
  | .nand _ _ _ => .nand
  | .lui _ _ => .lui
  | .sw _ _ _ => .sw
  | .lw _ _ _ => .lw
  | .beq _ _ _ => .beq
  | .jalr _ _ _ => .jalr

/-- The number of a register (10_state.md R11). -/
def Reg.index : Reg → Nat
  | .r0 => 0
  | .r1 => 1
  | .r2 => 2
  | .r3 => 3
  | .r4 => 4
  | .r5 => 5
  | .r6 => 6
  | .r7 => 7

end Sys2Proof
end

