-- ==== Sys2Proof/WellFormed.lean ====
section
/-! DEFINITION. What a well-formed instruction and a well-formed text-output window are. Every instruction is
well-formed: the types of its fields have exactly the values the fields have (10_state.md R14, 30_encoding.md R61),
so its check refuses nothing; the window's two checks do refuse. -/

namespace Sys2Proof

/-- A register index is one of 0 to 7 (10_state.md R14). -/
def Reg.wellFormed (r : Reg) : Bool := decide (r.index < 8)

/-- Every field is in the range its format gives it: indices 0 to 7, `imm7` 0 to 127, `imm10` 0 to 1023
(30_encoding.md R52 to R56, R63). -/
def Instr.wellFormed : Instr → Bool
  | .add a b c => a.wellFormed && b.wellFormed && c.wellFormed
  | .addi a b i => a.wellFormed && b.wellFormed && decide (i.toNat < 128)
  | .nand a b c => a.wellFormed && b.wellFormed && c.wellFormed
  | .lui a i => a.wellFormed && decide (i.toNat < 1024)
  | .sw a b i => a.wellFormed && b.wellFormed && decide (i.toNat < 128)
  | .lw a b i => a.wellFormed && b.wellFormed && decide (i.toNat < 128)
  | .beq a b i => a.wellFormed && b.wellFormed && decide (i.toNat < 128)
  | .jalr a b i => a.wellFormed && b.wellFormed && decide (i.toNat < 128)

/-- A text-output window is a sub-range of the data region 0x2000..0xFFFF (00_scope.md R5, R9, D19). -/
def TextWindow.wellFormed (w : TextWindow) : Bool :=
  decide (0x2000 ≤ w.lo.toNat) && decide (w.lo.toNat ≤ w.hi.toNat)

end Sys2Proof
end

