-- ==== Sys2Proof/Decode.lean ====
section
/-! DEFINITION. The decoder and the encoder (30_encoding.md). Decoding is total: all 65536 words are instructions
(R59, R61), so there is nothing to reject. -/

namespace Sys2Proof

/-- `word[15:13]` (30_encoding.md R51). -/
def fieldOpcode (w : Word) : BitVec 3 := w.extractLsb' 13 3

/-- `word[12:10]` (30_encoding.md R52). -/
def fieldA (w : Word) : BitVec 3 := w.extractLsb' 10 3

/-- `word[9:7]` (30_encoding.md R53). -/
def fieldB (w : Word) : BitVec 3 := w.extractLsb' 7 3

/-- `word[2:0]` (30_encoding.md R54). -/
def fieldC (w : Word) : BitVec 3 := w.extractLsb' 0 3

/-- `word[6:0]` (30_encoding.md R55). -/
def fieldImm7 (w : Word) : BitVec 7 := w.extractLsb' 0 7

/-- `word[9:0]` (30_encoding.md R56). -/
def fieldImm10 (w : Word) : BitVec 10 := w.extractLsb' 0 10

/-- The register a 3-bit index names (10_state.md R11, R14); eight arms, no default. -/
def Reg.ofBits (b : BitVec 3) : Reg :=
  match b.getLsbD 2, b.getLsbD 1, b.getLsbD 0 with
  | false, false, false => .r0
  | false, false, true => .r1
  | false, true, false => .r2
  | false, true, true => .r3
  | true, false, false => .r4
  | true, false, true => .r5
  | true, true, false => .r6
  | true, true, true => .r7

/-- The 3-bit index of a register. -/
def Reg.toBits (r : Reg) : BitVec 3 := BitVec.ofNat 3 r.index

/-- The opcode map (30_encoding.md R58). 0 and 6 are the source's; the other six numbers are the spec's decision D1
(log 1). -/
def Opcode.ofBits (b : BitVec 3) : Opcode :=
  match b.getLsbD 2, b.getLsbD 1, b.getLsbD 0 with
  | false, false, false => .add
  | false, false, true => .addi
  | false, true, false => .nand
  | false, true, true => .lui
  | true, false, false => .sw
  | true, false, true => .lw
  | true, true, false => .beq
  | true, true, true => .jalr

/-- The number of an opcode (30_encoding.md R58, D1). -/
def Opcode.toBits : Opcode → BitVec 3
  | .add => 0
  | .addi => 1
  | .nand => 2
  | .lui => 3
  | .sw => 4
  | .lw => 5
  | .beq => 6
  | .jalr => 7

/-- The decode function (30_encoding.md R59): total and pure. -/
def decode (w : Word) : Instr :=
  match Opcode.ofBits (fieldOpcode w) with
  | .add => .add (Reg.ofBits (fieldA w)) (Reg.ofBits (fieldB w)) (Reg.ofBits (fieldC w))
  | .addi => .addi (Reg.ofBits (fieldA w)) (Reg.ofBits (fieldB w)) (fieldImm7 w)
  | .nand => .nand (Reg.ofBits (fieldA w)) (Reg.ofBits (fieldB w)) (Reg.ofBits (fieldC w))
  | .lui => .lui (Reg.ofBits (fieldA w)) (fieldImm10 w)
  | .sw => .sw (Reg.ofBits (fieldA w)) (Reg.ofBits (fieldB w)) (fieldImm7 w)
  | .lw => .lw (Reg.ofBits (fieldA w)) (Reg.ofBits (fieldB w)) (fieldImm7 w)
  | .beq => .beq (Reg.ofBits (fieldA w)) (Reg.ofBits (fieldB w)) (fieldImm7 w)
  | .jalr => .jalr (Reg.ofBits (fieldA w)) (Reg.ofBits (fieldB w)) (fieldImm7 w)

/-- Format RRR: opcode, rA, rB, four ignored bits, rC (30_encoding.md R50); the ignored bits zero (R60). -/
def packRRR (op : Opcode) (a b c : Reg) : Word :=
  op.toBits ++ a.toBits ++ b.toBits ++ (0#4) ++ c.toBits

/-- Format RRI: opcode, rA, rB, imm7 (30_encoding.md R50). -/
def packRRI (op : Opcode) (a b : Reg) (i : BitVec 7) : Word :=
  op.toBits ++ a.toBits ++ b.toBits ++ i

/-- Format RI: opcode, rA, imm10 (30_encoding.md R50). -/
def packRI (op : Opcode) (a : Reg) (i : BitVec 10) : Word :=
  op.toBits ++ a.toBits ++ i

/-- The word of an instruction (30_encoding.md R50, R63). -/
def encode : Instr → Word
  | .add a b c => packRRR .add a b c
  | .addi a b i => packRRI .addi a b i
  | .nand a b c => packRRR .nand a b c
  | .lui a i => packRI .lui a i
  | .sw a b i => packRRI .sw a b i
  | .lw a b i => packRRI .lw a b i
  | .beq a b i => packRRI .beq a b i
  | .jalr a b i => packRRI .jalr a b i

/-- The instruction word held in the low `nbits` bits of `w`, every bit above them 0. An instruction is one 16-bit
word (30_encoding.md R50), so there is no second word to lay out and no byte order (20_memory.md R37). -/
def tableWord (nbits w : Nat) : Word := BitVec.ofNat 16 (w % 2 ^ nbits)

/-- What the decoder reads from an opcode-table word. No instruction is longer than 16 bits (30_encoding.md R50,
R62), so a longer one is refused. -/
def decodeTableWord (nbits w : Nat) : Option Instr :=
  if nbits ≤ 16 then some (decode (tableWord nbits w)) else none

end Sys2Proof
end

