-- ==== Sys2Proof/Machine/State.lean ====
section
/-! DEFINITION. The state of the machine (10_state.md R10): the register file, the program counter, memory, and the
host's breakpoint set; and the two kinds of stop, neither of which this hardware has (60_exceptions.md R110). -/

namespace Sys2Proof.Machine

/-- The seven general registers that have storage (10_state.md R10). Register 0 has none: it reads 0 and ignores
writes (R12, R13). -/
structure Regs where
  r1 : Word
  r2 : Word
  r3 : Word
  r4 : Word
  r5 : Word
  r6 : Word
  r7 : Word
deriving DecidableEq, Repr

/-- One listed word of memory: its address and its value. Memory is word addressed and has no bytes
(20_memory.md R30, R36, R37), so a cell is a word (log 9). -/
abbrev MemCell := Nat × Word

/-- Memory: the words that are not 0x0000, in rising order of address (log 9). Every other word reads 0x0000, the
value the session reset leaves in it (10_state.md R23, R24). `Memory.wf` in Machine/Ops.lean is the form. -/
abbrev Memory := List MemCell

/-- The breakpoint set: its members in rising order (10_state.md R22, log 10). `BreakpointSet.wf` in Machine/Ops.lean
is the form. -/
abbrev BreakpointSet := List Addr

/-- The whole state (10_state.md R10): general registers, program counter, memory, and the host's breakpoint set. -/
structure State where
  regs : Regs
  pc : Addr
  mem : Memory
  bp : BreakpointSet
deriving DecidableEq, Repr

/-- The machine has no fault: no exception, no interrupt, no trap; "Execute never fails" (60_exceptions.md R110,
40_sequencer_tick.md R72). The type therefore has no constructor, so that no step can answer one (log 21). -/
inductive Fault
deriving DecidableEq, Repr

/-- The refusals. Every word is an instruction and every instruction has its meaning (30_encoding.md R61), so nothing
raises the one constructor there is. -/
inductive Refusal
  /-- An arm of `exec` without a meaning would raise it; there is none. Safe: the machine would stop. -/
  | notModelled (mnemonic : String)
deriving DecidableEq, Repr

/-- The four error results (60_exceptions.md R111). They are values handed back by an operation, never a stop. -/
inductive HostError
  /-- An unforced write into the program region (20_memory.md R33). -/
  | protectionError
  /-- A token of the object file that is no 16-bit value (70_reset_and_hazards.md R145). -/
  | rangeError
  /-- The object file could not be opened or read (70_reset_and_hazards.md R145). -/
  | ioError
  /-- A malformed command (60_exceptions.md R111, R131). -/
  | argumentError
deriving DecidableEq, Repr

/-- The result an operation returns: `Ok` or `Err(<name>)` (00_scope.md R7). -/
inductive Result
  | ok
  | err (e : HostError)
deriving DecidableEq, Repr

/-- Every general register zero (10_state.md R23). -/
def Regs.zero : Regs := { r1 := 0, r2 := 0, r3 := 0, r4 := 0, r5 := 0, r6 := 0, r7 := 0 }

/-- The machine after the session reset (10_state.md R23, 70_reset_and_hazards.md R140): registers, program counter
and every memory word 0x0000, the breakpoint set empty. -/
def State.reset : State := { regs := Regs.zero, pc := 0, mem := [], bp := [] }

end Sys2Proof.Machine
end

