-- ==== Sys2Proof/Machine/Ops.lean ====
section
/-! DEFINITION. The named operations on registers, program counter, memory and breakpoint set, through which
everything else reads and writes the state. The hardware takes no exception and returns from none
(60_exceptions.md R110, R114, R115), so no such operation stands here. -/

namespace Sys2Proof.Machine

/-- The value of each parameter for this hardware (00_scope.md R5; D2, D3, D4; log 2, 3, 4). -/
def parameters : Config := { imm7Ext := .zero, pcRange := .full, luiMode := .overwrite }

/-! ## General registers -/

/-- `x[i]`: register 0 reads 0, the others their storage (10_state.md R12). -/
def Regs.read (g : Regs) : Reg → Word
  | .r0 => 0
  | .r1 => g.r1
  | .r2 => g.r2
  | .r3 => g.r3
  | .r4 => g.r4
  | .r5 => g.r5
  | .r6 => g.r6
  | .r7 => g.r7

/-- `x[i] <- v`: nothing for register 0 (10_state.md R13). -/
def Regs.write (g : Regs) (r : Reg) (v : Word) : Regs :=
  match r with
  | .r0 => g
  | .r1 => { g with r1 := v }
  | .r2 => { g with r2 := v }
  | .r3 => { g with r3 := v }
  | .r4 => { g with r4 := v }
  | .r5 => { g with r5 := v }
  | .r6 => { g with r6 := v }
  | .r7 => { g with r7 := v }

/-- `x[i]` in a state (10_state.md R12). -/
def State.readReg (s : State) (r : Reg) : Word := s.regs.read r

/-- `x[i] <- v` in a state (10_state.md R13). -/
def State.writeReg (s : State) (r : Reg) (v : Word) : State := { s with regs := s.regs.write r v }

/-! ## Memory regions -/

/-- `InProgramRegion(a)`: 0x0000 to 0x1FFF (20_memory.md R31). -/
def inProgramRegion (a : Addr) : Bool := decide (a.toNat ≤ 0x1FFF)

/-- `InDataRegion(a)`: 0x2000 to 0xFFFF (20_memory.md R31). -/
def inDataRegion (a : Addr) : Bool := decide (0x2000 ≤ a.toNat)

/-! ## Program counter -/

/-- Whether a write of `target` to the program counter is accepted (10_state.md R17). For `programOnly`, which this
hardware does not take, see log 3. -/
def pcAccepts (range : PcRange) (target : Addr) : Bool :=
  match range with
  | .full => true
  | .programOnly => inProgramRegion target

/-- `pc <- target` (10_state.md R17). A rejected write leaves the program counter as it is (log 3). -/
def State.writePc (s : State) (target : Addr) : State :=
  if pcAccepts parameters.pcRange target then { s with pc := target } else s

/-- `increment_pc()`: `pc <- pc +16 1`, so 0x0000 follows 0xFFFF (10_state.md R18, D6, log 5). -/
def State.incPc (s : State) : State := s.writePc (s.pc + 1)

/-! ## The memory array -/

/-- The word listed at address `a`; 0x0000, the reset contents, where none is listed (10_state.md R23, R24). -/
def cellAt : List MemCell → Nat → Word
  | [], _ => 0
  | (k, v) :: cells, a => if k = a then v else cellAt cells a

/-- The cells without those at address `a`. -/
def eraseCell : List MemCell → Nat → List MemCell
  | [], _ => []
  | (k, v) :: cells, a => if k = a then eraseCell cells a else (k, v) :: eraseCell cells a

/-- The cells with `(a, v)` put before the first greater address. -/
def insertCell : List MemCell → Nat → Word → List MemCell
  | [], a, v => [(a, v)]
  | (k, w) :: cells, a, v =>
    if a < k then (a, v) :: (k, w) :: cells else (k, w) :: insertCell cells a v

/-- `mem[a]` (20_memory.md R32). -/
def Memory.read (m : Memory) (a : Addr) : Word := cellAt m a.toNat

/-- `mem[a] := v`. Writing 0x0000 lists nothing, so that equal memories are equal lists (log 9). -/
def Memory.set (m : Memory) (a : Addr) (v : Word) : Memory :=
  if v = 0 then eraseCell m a.toNat else insertCell (eraseCell m a.toNat) a.toNat v

/-- Addresses strictly rising from `lo` on and below 65536, and no listed word 0x0000. -/
def cellsFrom (lo : Nat) : List MemCell → Bool
  | [] => true
  | (k, v) :: cells => decide (lo ≤ k) && decide (k < 65536) && decide (v ≠ 0) && cellsFrom (k + 1) cells

/-- The canonical form of a memory (log 9). -/
def Memory.wf (m : Memory) : Bool := cellsFrom 0 m

/-- `MemWrite(a, 1, v)`, the unforced write (20_memory.md R33): `ProtectionError` and the memory unchanged in the
program region, a store otherwise. -/
def Memory.writeUnforced (m : Memory) (a : Addr) (v : Word) : Result × Memory :=
  if inProgramRegion a then (.err .protectionError, m) else (.ok, m.set a v)

/-- `MemWriteForced(a, 1, v)` (20_memory.md R34): stores, in either region. -/
def Memory.writeForced (m : Memory) (a : Addr) (v : Word) : Result × Memory := (.ok, m.set a v)

/-- `MemRead(a, 1)` in a state: never fails, changes nothing (20_memory.md R32). -/
def State.readMem (s : State) (a : Addr) : Word := s.mem.read a

/-- The memory access of a store instruction: the unforced write, its result beside the new state. -/
def State.writeMem (s : State) (a : Addr) (v : Word) : Result × State :=
  let w := s.mem.writeUnforced a v
  (w.1, { s with mem := w.2 })

/-- The memory access of the host: the forced write, its result beside the new state. -/
def State.pokeMem (s : State) (a : Addr) (v : Word) : Result × State :=
  let w := s.mem.writeForced a v
  (w.1, { s with mem := w.2 })

/-- The fetch: the word at the program counter, at its value at the start of the tick
(40_sequencer_tick.md R70, R71). -/
def State.fetch (s : State) : Word := s.readMem s.pc

/-- The state with the instruction word placed where the next fetch reads it, as a poke places it (log 12). -/
def State.placeFetchWord (s : State) (w : Word) : State := (s.pokeMem s.pc w).2

/-! ## The breakpoint set -/

/-- The members with `a` put before the first greater one. -/
def insertAddr : List Addr → Addr → List Addr
  | [], a => [a]
  | b :: bs, a => if a.toNat < b.toNat then a :: b :: bs else b :: insertAddr bs a

/-- `BP ∪ {a}`; adding a member is a no-op (60_exceptions.md R126). -/
def BreakpointSet.add (bp : BreakpointSet) (a : Addr) : BreakpointSet :=
  if a ∈ bp then bp else insertAddr bp a

/-- `BP \ {a}`; removing an absent address is a no-op (60_exceptions.md R127). -/
def BreakpointSet.remove (bp : BreakpointSet) (a : Addr) : BreakpointSet :=
  bp.filter (fun b => decide (b ≠ a))

/-- Members strictly rising from `lo` on. -/
def addrsFrom (lo : Nat) : List Addr → Bool
  | [] => true
  | b :: bs => decide (lo ≤ b.toNat) && addrsFrom (b.toNat + 1) bs

/-- The canonical form of a breakpoint set (log 10). -/
def BreakpointSet.wf (bp : BreakpointSet) : Bool := addrsFrom 0 bp

/-! ## Ends of an instruction -/

/-- The end the four arithmetic and logic instructions and LW share: write the destination, then advance
(41_arithmetic_logic.md R80 (c), (d); 40_sequencer_tick.md R71). -/
def State.retire (s : State) (rA : Reg) (v : Word) : State := (s.writeReg rA v).incPc

end Sys2Proof.Machine
end

