-- ==== Sys2Proof/Machine/Operands.lean ====
section
/-! DEFINITION. Operand values: the immediates and the one addressing mode. -/

namespace Sys2Proof.Machine

/-- `zext_16(v)` (00_scope.md R7). -/
def zext16 (v : BitVec 7) : Word := v.zeroExtend 16

/-- `sext_16(v)` (00_scope.md R7); never used with the value of `IMM7_EXT` taken. -/
def sext16 (v : BitVec 7) : Word := v.signExtend 16

/-- The operand `imm` made from `imm7`, for either value of `IMM7_EXT` (30_encoding.md R57). -/
def imm7Operand (ext : Imm7Ext) (imm7 : BitVec 7) : Word :=
  match ext with
  | .zero => zext16 imm7
  | .sign => sext16 imm7

/-- The operand `imm` of ADDI, SW, LW and BEQ (30_encoding.md R57, D2, log 2): 0 to 127. -/
def immOperand (imm7 : BitVec 7) : Word := imm7Operand parameters.imm7Ext imm7

/-- `imm10 << 6`: bits 15:6 are `imm10`, bits 5:0 are 0 (30_encoding.md R56, 41_arithmetic_logic.md R84). -/
def upperImmediate (imm10 : BitVec 10) : Word := imm10 ++ (0#6)

/-- What LUI writes over the old value of its register, for either value of `LUI_MODE`
(41_arithmetic_logic.md R84). -/
def luiValue (mode : LuiMode) (old : Word) (imm10 : BitVec 10) : Word :=
  match mode with
  | .overwrite => upperImmediate imm10
  | .merge => old ||| upperImmediate imm10

/-- `ea = x[rB] +16 zext_16(imm7)` (42_load_store.md R90): a word address, modulo 2^16 (D6, log 5). -/
def State.effectiveAddress (s : State) (rB : Reg) (imm7 : BitVec 7) : Addr :=
  s.readReg rB + immOperand imm7

end Sys2Proof.Machine
end

