-- ==== Sys2Proof/Machine/Flags.lean ====
section
/-! DEFINITION. The hardware has no flags, condition codes or predicate registers (10_state.md R20); no instruction
computes one. The one condition there is, BEQ's, is computed by the instruction itself (43_control_transfer.md
R100). -/

namespace Sys2Proof.Machine

/-- Equality of all 16 bits (41_arithmetic_logic.md R85, 43_control_transfer.md R100). -/
def equalWords (a b : Word) : Bool := decide (a = b)

end Sys2Proof.Machine
end

