-- ==== Sys2Proof/Machine/Arithmetic.lean ====
section
/-! DEFINITION. ADD, ADDI, NAND, LUI (41_arithmetic_logic.md). Sources are read before the destination is written;
no flag, no exception (R80). -/

namespace Sys2Proof.Machine

/-- ADD (41_arithmetic_logic.md R81): the sum modulo 2^16 (D6, log 5). -/
def execAdd (rA rB rC : Reg) (s : State) : Host.Outcome State Fault Refusal :=
  .next (s.retire rA (s.readReg rB + s.readReg rC))

/-- ADDI (41_arithmetic_logic.md R82): the sum modulo 2^16 with the zero-extended immediate (D2, D6, log 2, 5). -/
def execAddi (rA rB : Reg) (imm7 : BitVec 7) (s : State) : Host.Outcome State Fault Refusal :=
  .next (s.retire rA (s.readReg rB + immOperand imm7))

/-- NAND (41_arithmetic_logic.md R83): all 16 bits. -/
def execNand (rA rB rC : Reg) (s : State) : Host.Outcome State Fault Refusal :=
  .next (s.retire rA (~~~(s.readReg rB &&& s.readReg rC)))

/-- LUI (41_arithmetic_logic.md R84): with `LUI_MODE = overwrite` the old value does not enter (D4, log 4). -/
def execLui (rA : Reg) (imm10 : BitVec 10) (s : State) : Host.Outcome State Fault Refusal :=
  .next (s.retire rA (luiValue parameters.luiMode (s.readReg rA) imm10))

end Sys2Proof.Machine
end

