-- ==== Sys2Proof/Machine/Control.lean ====
section
/-! DEFINITION. BEQ and JALR (43_control_transfer.md). `s.pc` is the address of the instruction itself
(40_sequencer_tick.md R71). There is no delay slot (R102). -/

namespace Sys2Proof.Machine

/-- BEQ (43_control_transfer.md R100): taken, `pc + 1 + imm`; not taken, `pc + 1`; both modulo 2^16 (D2, D5, D6,
log 2, 5). -/
def execBeq (rA rB : Reg) (imm7 : BitVec 7) (s : State) : Host.Outcome State Fault Refusal :=
  if equalWords (s.readReg rA) (s.readReg rB) then
    .next (s.writePc (s.pc + 1 + immOperand imm7))
  else
    .next s.incPc

/-- JALR (43_control_transfer.md R101): the link is written FIRST, then `x[rB]` is read for the new program counter
(D7, log 6). The `imm7` field takes no part (30_encoding.md R60, log 7). -/
def execJalr (rA rB : Reg) (_imm7 : BitVec 7) (s : State) : Host.Outcome State Fault Refusal :=
  let linked := s.writeReg rA (s.pc + 1)
  .next (linked.writePc (linked.readReg rB))

end Sys2Proof.Machine
end

