-- ==== Sys2Proof/Machine/LoadStore.lean ====
section
/-! DEFINITION. SW and LW (42_load_store.md). -/

namespace Sys2Proof.Machine

/-- SW (42_load_store.md R91): the unforced write at the effective address, its result discarded (D10, log 8); no
register changes, the program counter advances. -/
def execSw (rA rB : Reg) (imm7 : BitVec 7) (s : State) : Host.Outcome State Fault Refusal :=
  .next (s.writeMem (s.effectiveAddress rB imm7) (s.readReg rA)).2.incPc

/-- LW (42_load_store.md R92): the whole word at the effective address, in either region; the address is computed from
the old value of a register that is also the destination. -/
def execLw (rA rB : Reg) (imm7 : BitVec 7) (s : State) : Host.Outcome State Fault Refusal :=
  .next (s.retire rA (s.readMem (s.effectiveAddress rB imm7)))

end Sys2Proof.Machine
end

