-- ==== Sys2Proof/Machine/Dispatch.lean ====
section
/-! DEFINITION. The execute part of the tick (40_sequencer_tick.md R70): eight arms and no default. -/

namespace Sys2Proof.Machine

def exec (i : Instr) (s : State) : Host.Outcome State Fault Refusal :=
  match i with
  | .add rA rB rC => Sys2Proof.Machine.execAdd rA rB rC s
  | .addi rA rB imm7 => Sys2Proof.Machine.execAddi rA rB imm7 s
  | .nand rA rB rC => Sys2Proof.Machine.execNand rA rB rC s
  | .lui rA imm10 => Sys2Proof.Machine.execLui rA imm10 s
  | .sw rA rB imm7 => Sys2Proof.Machine.execSw rA rB imm7 s
  | .lw rA rB imm7 => Sys2Proof.Machine.execLw rA rB imm7 s
  | .beq rA rB imm7 => Sys2Proof.Machine.execBeq rA rB imm7 s
  | .jalr rA rB imm7 => Sys2Proof.Machine.execJalr rA rB imm7 s

end Sys2Proof.Machine
end

