-- ==== Sys2Proof/Machine/Step.lean ====
section
/-! DEFINITION. The tick (40_sequencer_tick.md R70) and the placing of an instruction where it fetches. -/

namespace Sys2Proof.Machine

/-- One tick: fetch the word at the program counter, decode it, execute it (40_sequencer_tick.md R70). It is one
indivisible step (R73); the host asks for it (R75, log 12). -/
def step (s : State) : Host.Outcome State Fault Refusal := exec (decode s.fetch) s

/-- `s` with the instruction of the opcode-table word `w` stored at the program counter, and nothing else changed. It
stands for the host's load or poke of a program (log 12). -/
def State.withFetchWord (s : State) (nbits w : Nat) : State := s.placeFetchWord (tableWord nbits w)

end Sys2Proof.Machine
end

