-- ==== Sys2Proof/Machine/HostOps.lean ====
section
/-! DEFINITION. The host's operations on the core (60_exceptions.md R121 to R131, 70_reset_and_hazards.md R141): the
only way anything outside the core changes its state. Each is typed (D23, log 15) and acts between ticks (R129). -/

namespace Sys2Proof.Machine

/-- `poke(a, v)`: the forced write (60_exceptions.md R123). -/
def poke (a : Addr) (v : Word) (s : State) : Result × State := s.pokeMem a v

/-- `set-pc(a)` (60_exceptions.md R124, D3, log 3). -/
def setPc (a : Addr) (s : State) : State := s.writePc a

/-- `add-breakpoint(a)` (60_exceptions.md R126). -/
def addBreakpoint (a : Addr) (s : State) : State := { s with bp := s.bp.add a }

/-- `remove-breakpoint(a)` (60_exceptions.md R127). -/
def removeBreakpoint (a : Addr) (s : State) : State := { s with bp := s.bp.remove a }

/-- `RegReset` (70_reset_and_hazards.md R141, D13, log 11): registers and program counter zero, memory and breakpoints
unchanged. -/
def regReset (s : State) : State := { s with regs := Regs.zero, pc := 0 }

/-- `SessionReset` (70_reset_and_hazards.md R140): whatever the state before, everything zero and `BP` empty. -/
def sessionReset (_s : State) : State := State.reset

/-- `step(n)`: exactly `n` ticks, `n` any natural number, breakpoints not looked at (60_exceptions.md R125, D22). -/
def stepN : Nat → State → Host.Outcome State Fault Refusal
  | 0, s => .next s
  | n + 1, s =>
    match step s with
    | .next t => stepN n t
    | .fault r => .fault r
    | .refused r => .refused r

/-- What an operation hands back to the host. -/
inductive Reply
  /-- The operation completed. -/
  | ok
  /-- Run-to-breakpoint saw the cancellation signal (60_exceptions.md R128). -/
  | cancelled
  /-- Run-to-breakpoint arrived at a breakpoint, at this program counter (60_exceptions.md R128). -/
  | hitBreakpoint (pc : Addr)
  /-- Run-to-breakpoint has used up the polls given to the model and has not returned yet (log 13). -/
  | stillRunning
  /-- The operation was aborted with one of the error results (60_exceptions.md R111). -/
  | error (e : HostError)
deriving DecidableEq, Repr

/-- `run-to-breakpoint()` (60_exceptions.md R128, D20): poll, tick, compare the new program counter with `BP`, repeat.
`polls` is what `Cancel()` answers at each poll, a free input of the host (log 13). -/
def runToBreakpoint : List Bool → State → Host.Outcome (Reply × State) Fault Refusal
  | [], s => .next (.stillRunning, s)
  | cancel :: polls, s =>
    if cancel then .next (.cancelled, s)
    else
      match step s with
      | .next t => if t.pc ∈ t.bp then .next (.hitBreakpoint t.pc, t) else runToBreakpoint polls t
      | .fault r => .fault r
      | .refused r => .refused r

/-- An operation of the host during a session (60_exceptions.md R121). move-view changes no state and is omitted
(R122); session reset and load are done once, before the session (Machine/Loader.lean). -/
inductive HostOp
  | poke (a : Addr) (v : Word)
  | setPc (a : Addr)
  | step (n : Nat)
  | addBreakpoint (a : Addr)
  | removeBreakpoint (a : Addr)
  | runToBreakpoint (polls : List Bool)
  | regReset
deriving DecidableEq, Repr

/-- The reply an operation without a result of its own gives. -/
def replyOk : Host.Outcome State Fault Refusal → Host.Outcome (Reply × State) Fault Refusal
  | .next t => .next (.ok, t)
  | .fault r => .fault r
  | .refused r => .refused r

/-- The reply that carries an operation's result. -/
def Reply.ofResult : Result → Reply
  | .ok => .ok
  | .err e => .error e

/-- One host operation (60_exceptions.md R121). -/
def hostOp (op : HostOp) (s : State) : Host.Outcome (Reply × State) Fault Refusal :=
  match op with
  | .poke a v => .next (Reply.ofResult (Sys2Proof.Machine.poke a v s).1, (Sys2Proof.Machine.poke a v s).2)
  | .setPc a => .next (.ok, Sys2Proof.Machine.setPc a s)
  | .step n => replyOk (stepN n s)
  | .addBreakpoint a => .next (.ok, Sys2Proof.Machine.addBreakpoint a s)
  | .removeBreakpoint a => .next (.ok, Sys2Proof.Machine.removeBreakpoint a s)
  | .runToBreakpoint polls => Sys2Proof.Machine.runToBreakpoint polls s
  | .regReset => .next (.ok, Sys2Proof.Machine.regReset s)

/-- A command as the text parser hands it over: an operation, or `none` where the text does not parse, which is
reported as `ArgumentError` and changes nothing (60_exceptions.md R111, R131, D23). -/
def command (c : Option HostOp) (s : State) : Host.Outcome (Reply × State) Fault Refusal :=
  match c with
  | none => .next (.error .argumentError, s)
  | some op => hostOp op s

/-- A session: the operations one after the other (60_exceptions.md R129). A run-to-breakpoint that has not returned
lets no further operation begin. -/
def session : List HostOp → State → Host.Outcome State Fault Refusal
  | [], s => .next s
  | op :: ops, s =>
    match hostOp op s with
    | .next (.stillRunning, t) => .next t
    | .next (_, t) => session ops t
    | .fault r => .fault r
    | .refused r => .refused r

/-! ## Read-only accessors (60_exceptions.md R130) -/

/-- The "current instruction": the one the next tick will execute (60_exceptions.md R130, D24, log 19). -/
def currentInstr (s : State) : Instr := decode (s.readMem s.pc)

/-- The register contents shown to the host (60_exceptions.md R130): register 0 to register 7. R130 does not say whether
they take in the program counter, which is part of the register file (10_state.md R11); the model leaves it out of this
list, `State.pc` being its accessor (DESIGN CHOICE, log 19). -/
def registerContents (s : State) : List Word :=
  [Reg.r0, .r1, .r2, .r3, .r4, .r5, .r6, .r7].map s.readReg

/-- The memory contents of the `n` words from `lo` on. -/
def memoryContents (s : State) : Addr → Nat → List Word
  | _, 0 => []
  | lo, n + 1 => s.readMem lo :: memoryContents s (lo + 1) n

/-- The breakpoint set shown to the host. -/
def breakpoints (s : State) : BreakpointSet := s.bp

end Sys2Proof.Machine
end

