-- ==== Sys2Proof/Machine/Loader.lean ====
section
/-! DEFINITION. Loading the program, once, after the session reset and before any tick (70_reset_and_hazards.md R144,
R145). The text of the object file is outside the hardware: the load takes classified tokens (D18, log 14). -/

namespace Sys2Proof.Machine

/-- One line of the object file: a 16-bit value, or one that does not parse or does not fit
(70_reset_and_hazards.md R144). -/
inductive Token
  | word (v : Word)
  | bad
deriving DecidableEq, Repr

/-- The byte source of the load: one that cannot be opened, or the tokens it holds (70_reset_and_hazards.md R145). -/
inductive LoadSource
  | unopenable
  | tokens (ts : List Token)
deriving DecidableEq, Repr

/-- The loop of `Load` from address `a` on (70_reset_and_hazards.md R144): the capacity test comes before the token. -/
def loadFrom : List Token → Nat → Memory → Result × Memory
  | [], _, m => (.ok, m)
  | t :: ts, a, m =>
    if 0x1FFF < a then (.ok, m)
    else
      match t with
      | .word v => loadFrom ts (a + 1) (m.set (BitVec.ofNat 16 a) v)
      | .bad => (.err .rangeError, m)

/-- `load(source)`: one token per consecutive address from 0 on (70_reset_and_hazards.md R144, R145). -/
def load (src : LoadSource) (s : State) : Result × State :=
  match src with
  | .unopenable => (.err .ioError, s)
  | .tokens ts =>
    let r := loadFrom ts 0 s.mem
    (r.1, { s with mem := r.2 })

/-- The boot: session reset, then load (70_reset_and_hazards.md R147). -/
def boot (src : LoadSource) (s : State) : Result × State := load src (sessionReset s)

end Sys2Proof.Machine
end

