-- ==== Sys2Proof/Machine/Ports.lean ====
section
/-! DEFINITION. The four blocks at their ports (10_state.md R25, 20_memory.md R46, 30_encoding.md R65,
40_sequencer_tick.md R76). Only the behaviour is normative, the port names are the spec's own (D11, log 17). -/

namespace Sys2Proof.Machine

/-- The decoder's outputs (30_encoding.md R65). -/
structure DecoderOut where
  opcode : BitVec 3
  rA : BitVec 3
  rB : BitVec 3
  rC : BitVec 3
  imm7 : BitVec 7
  imm10 : BitVec 10
  raw : Word
deriving DecidableEq, Repr

/-- The decoder: combinational, every output produced for every word (30_encoding.md R65). -/
def decoderPorts (w : Word) : DecoderOut :=
  { opcode := fieldOpcode w, rA := fieldA w, rB := fieldB w, rC := fieldC w, imm7 := fieldImm7 w,
    imm10 := fieldImm10 w, raw := w }

/-- The memory controller's inputs (20_memory.md R46). -/
structure MemoryIn where
  addr : Addr
  wdata : Word
  we : Bool
  forced : Bool
  reset : Bool
deriving DecidableEq, Repr

/-- The memory controller's outputs (20_memory.md R46). -/
structure MemoryOut where
  rdata : Word
  err : Bool
deriving DecidableEq, Repr

/-- The effective write enable, `we & (forced | (addr[15:13] != 0))` (20_memory.md R46). -/
def memoryWriteEnable (p : MemoryIn) : Bool :=
  p.we && (p.forced || decide (p.addr.extractLsb' 13 3 ≠ 0))

/-- The memory controller, one access (20_memory.md R46). A reset together with a write: the reset wins, and `rdata` is
the word before the access (log 17). -/
def memoryPorts (p : MemoryIn) (m : Memory) : MemoryOut × Memory :=
  ({ rdata := m.read p.addr, err := p.we && !p.forced && inProgramRegion p.addr },
    if p.reset then [] else if memoryWriteEnable p then m.set p.addr p.wdata else m)

/-- The register file's inputs (10_state.md R25). -/
structure RegFileIn where
  raddr1 : BitVec 3
  raddr2 : BitVec 3
  waddr : BitVec 3
  wdata : Word
  we : Bool
  pcIn : Addr
  pcLoad : Bool
  pcInc : Bool
  reset : Bool
deriving DecidableEq, Repr

/-- The register file's outputs (10_state.md R25). -/
structure RegFileOut where
  rdata1 : Word
  rdata2 : Word
  pcOut : Addr
deriving DecidableEq, Repr

/-- The write port's part of an access: the write of 10_state.md R13 when `we = 1` (R25). -/
def regFileWrite (p : RegFileIn) (s : State) : State :=
  if p.we then s.writeReg (Reg.ofBits p.waddr) p.wdata else s

/-- The program counter's part of an access: load, else increment, else nothing (10_state.md R25). -/
def regFilePc (p : RegFileIn) (s : State) : State :=
  if p.pcLoad then s.writePc p.pcIn else if p.pcInc then s.incPc else s

/-- The register file, one access (10_state.md R25): reads are combinational, of the state before; the writes take
effect together. A reset together with a write: the reset wins (log 17). -/
def regFilePorts (p : RegFileIn) (s : State) : RegFileOut × State :=
  ({ rdata1 := s.readReg (Reg.ofBits p.raddr1), rdata2 := s.readReg (Reg.ofBits p.raddr2), pcOut := s.pc },
    if p.reset then regReset s else regFilePc p (regFileWrite p s))

/-- The sequencer at its ports (40_sequencer_tick.md R75, R76): one tick when `tick_req = 1`, nothing otherwise;
`tick_done` is 1 with a completed tick. With `tick_req = 0` R76 does not fix it, for an idle core is at a tick boundary
too: 0 there is the model's choice (DESIGN CHOICE, log 17). -/
def sequencerPorts (tickReq : Bool) (s : State) : Host.Outcome (Bool × State) Fault Refusal :=
  if tickReq then
    match step s with
    | .next t => .next (true, t)
    | .fault r => .fault r
    | .refused r => .refused r
  else .next (false, s)

end Sys2Proof.Machine
end

