-- ==== Sys2Proof/Safety.lean ====
section
/-! DEFINITION. What counts as a good state and a safe run, in the terms the statements use. -/

namespace Sys2Proof.Machine

/-- The invariant of the representation: memory and breakpoint set are in their canonical forms (log 9, 10). Every
other combination of values is a state of the hardware (10_state.md R10, R17). -/
def State.wf (s : State) : Bool := s.mem.wf && s.bp.wf

/-- The outcome is a next state: neither a fault nor a refusal (40_sequencer_tick.md R72). -/
def Completes {σ : Type} (o : Host.Outcome σ Fault Refusal) : Prop := ∃ t, o = .next t

/-- The two states hold the same program region, 0x0000 to 0x1FFF (20_memory.md R31, R33). -/
def SameProgramRegion (s t : State) : Prop :=
  ∀ a : Addr, inProgramRegion a = true → t.readMem a = s.readMem a

/-- Two outcomes complete with the same program counter, and the first one changed nothing else of `s`
(10_state.md R13: what is left of an instruction whose destination is register 0). -/
def WritesOnlyPcLike (s : State) (o o' : Host.Outcome State Fault Refusal) : Prop :=
  ∃ t u, o = .next t ∧ o' = .next u ∧ t = { s with pc := u.pc }

/-- The host operations that put a word into the program region: a poke there (20_memory.md R34). -/
def HostOp.pokesProgramRegion : HostOp → Bool
  | .poke a _ => inProgramRegion a
  | _ => false

end Sys2Proof.Machine
end

