-- ==== Sys2Proof/Certificates/Slice0/Obligations.lean ====
section
/-! DEFINITION. The statements for the provers. `x[r]` is `readReg r`, `mem[a]` is `readMem a`; every sum of words is
modulo 2^16 (00_scope.md R7, D6). -/

open Sys2Proof Sys2Proof.Machine

/-! ## Encoding -/

/-- 95_test_vectors.md, table E: re-packing fields in range and decoding returns the same fields. Rests on the opcode
numbers of D1 (log 1). -/
def Obligations.DecodeEncodeRoundTrip : Prop :=
  ∀ i : Instr, i.wellFormed = true → decode (encode i) = i

/-- 30_encoding.md R60, R63: re-encoding a decoded word gives the word back, but for the ignored bits 6:3 of ADD and
NAND, which come back zero. The ignored bits 6:0 of JALR come back unchanged: that clause is the model's choice (log 7),
for the canonical JALR word of R63 and D9 has them zero. Rests on D1, D9 (log 1, 7). -/
def Obligations.EncodeDecodeZeroesAddNandIgnoredBits : Prop :=
  ∀ w : Word, encode (decode w) =
    if fieldOpcode w = 0 ∨ fieldOpcode w = 2 then w &&& 0xFF87 else w

/-- 30_encoding.md R50 to R59: which instruction each opcode number selects, from which bits each field is taken, and
which register each index names. The numbers but 0 and 6 are the spec's decision D1 (log 1). -/
def Obligations.DecodeReadsEveryField : Prop :=
  (∀ b : BitVec 3, (Reg.ofBits b).index = b.toNat) ∧
  ∀ w : Word,
    let op := w.extractLsb' 13 3
    let rA := Reg.ofBits (w.extractLsb' 10 3)
    let rB := Reg.ofBits (w.extractLsb' 7 3)
    let rC := Reg.ofBits (w.extractLsb' 0 3)
    let imm7 := w.extractLsb' 0 7
    let imm10 := w.extractLsb' 0 10
    (op = 0 → decode w = .add rA rB rC) ∧
    (op = 1 → decode w = .addi rA rB imm7) ∧
    (op = 2 → decode w = .nand rA rB rC) ∧
    (op = 3 → decode w = .lui rA imm10) ∧
    (op = 4 → decode w = .sw rA rB imm7) ∧
    (op = 5 → decode w = .lw rA rB imm7) ∧
    (op = 6 → decode w = .beq rA rB imm7) ∧
    (op = 7 → decode w = .jalr rA rB imm7)

/-- 95_test_vectors.md, table E: one written-out word of each instruction. Rests on D1 (log 1), but for the two words
of the source's own scenarios A and B. -/
def Obligations.WrittenWordsDecode : Prop :=
  decode 0x0503 = .add .r1 .r2 .r3 ∧ decode 0x057B = .add .r1 .r2 .r3 ∧
  decode 0x2480 = .addi .r1 .r1 0 ∧ decode 0x5555 = .nand .r5 .r2 .r5 ∧
  decode 0x77FF = .lui .r5 0x3FF ∧ decode 0x9080 = .sw .r4 .r1 0 ∧
  decode 0xAAAA = .lw .r2 .r5 42 ∧ decode 0xC079 = .beq .r0 .r0 121 ∧
  decode 0xE480 = .jalr .r1 .r1 0

/-- 30_encoding.md R60 (D8, D9, log 7): two ADD or NAND words that differ in bits 6:3 only are the same instruction, and
two JALR words that differ in bits 6:0 only execute alike. That NAND words have opcode number 2 and JALR words 7 is the
spec's decision D1 (log 1). -/
def Obligations.IgnoredBitsHaveNoEffect : Prop :=
  (∀ w v : Word, fieldOpcode w = 0 ∨ fieldOpcode w = 2 → w &&& 0xFF87 = v &&& 0xFF87 → decode w = decode v) ∧
  (∀ (w v : Word) (s : State), fieldOpcode w = 7 → w &&& 0xFF80 = v &&& 0xFF80 →
    exec (decode w) s = exec (decode v) s)

/-! ## Registers -/

/-- 10_state.md R12: a register read, in every state, so whatever was written before. -/
def Obligations.RegisterReadRule : Prop :=
  ∀ s : State, s.readReg .r0 = 0 ∧ s.readReg .r1 = s.regs.r1 ∧ s.readReg .r2 = s.regs.r2 ∧
    s.readReg .r3 = s.regs.r3 ∧ s.readReg .r4 = s.regs.r4 ∧ s.readReg .r5 = s.regs.r5 ∧
    s.readReg .r6 = s.regs.r6 ∧ s.readReg .r7 = s.regs.r7

/-- 10_state.md R13: a register write changes that register and nothing else; a write of register 0 changes nothing at
all, and does not stop or alter the rest of an instruction: with rA = 0 it writes the program counter as it would with
another rA, and nothing else. The JALR clause, a jump to x[rB] whatever its value, is 43_control_transfer.md R101 with
`PC_RANGE = full` (D3, log 3). -/
def Obligations.RegisterWriteRule : Prop :=
  ∀ s : State,
    (∀ (r : Reg) (v : Word), r ≠ .r0 →
      (∀ q, (s.writeReg r v).readReg q = if q = r then v else s.readReg q) ∧
      (s.writeReg r v).pc = s.pc ∧ (s.writeReg r v).mem = s.mem ∧ (s.writeReg r v).bp = s.bp) ∧
    (∀ v : Word, s.writeReg .r0 v = s) ∧
    ∀ (rA rB rC : Reg) (imm7 : BitVec 7) (imm10 : BitVec 10),
      WritesOnlyPcLike s (exec (.add .r0 rB rC) s) (exec (.add rA rB rC) s) ∧
      WritesOnlyPcLike s (exec (.addi .r0 rB imm7) s) (exec (.addi rA rB imm7) s) ∧
      WritesOnlyPcLike s (exec (.nand .r0 rB rC) s) (exec (.nand rA rB rC) s) ∧
      WritesOnlyPcLike s (exec (.lui .r0 imm10) s) (exec (.lui rA imm10) s) ∧
      WritesOnlyPcLike s (exec (.lw .r0 rB imm7) s) (exec (.lw rA rB imm7) s) ∧
      exec (.jalr .r0 rB imm7) s = .next { s with pc := s.readReg rB }

/-! ## Memory -/

/-- 20_memory.md R31: the two regions by address and by bits 15:13; they cover the space and do not overlap. -/
def Obligations.RegionsPartitionTheAddressSpace : Prop :=
  ∀ a : Addr,
    (inProgramRegion a = true ↔ a.toNat ≤ 0x1FFF) ∧ (inProgramRegion a = true ↔ a.extractLsb' 13 3 = 0) ∧
    (inDataRegion a = true ↔ 0x2000 ≤ a.toNat) ∧ (inDataRegion a = true ↔ a.extractLsb' 13 3 ≠ 0) ∧
    inDataRegion a = !inProgramRegion a

/-- 20_memory.md R33: the unforced write. In the program region it fails with `ProtectionError` and leaves the state
as it was; elsewhere it stores the one word. -/
def Obligations.UnforcedWriteIsProtected : Prop :=
  ∀ (s : State) (a : Addr) (v : Word),
    (a.toNat ≤ 0x1FFF → s.writeMem a v = (.err .protectionError, s)) ∧
    (0x2000 ≤ a.toNat → ∃ t, s.writeMem a v = (.ok, t) ∧
      (∀ b, t.readMem b = if b = a then v else s.readMem b) ∧
      t.regs = s.regs ∧ t.pc = s.pc ∧ t.bp = s.bp)

/-- 20_memory.md R34: the forced write stores in either region; and no instruction makes one, for no instruction
changes a word of the program region. -/
def Obligations.ForcedWriteAlwaysStores : Prop :=
  ∀ s : State,
    (∀ (a : Addr) (v : Word), ∃ t, s.pokeMem a v = (.ok, t) ∧
      (∀ b, t.readMem b = if b = a then v else s.readMem b) ∧
      t.regs = s.regs ∧ t.pc = s.pc ∧ t.bp = s.bp) ∧
    (∀ (i : Instr) (t : State), exec i s = .next t → ∀ b : Addr, b.toNat ≤ 0x1FFF → t.readMem b = s.readMem b)

/-- The model's canonical forms are faithful (log 9, 10): two canonical memories that read alike, and two canonical
breakpoint sets with the same members, are equal data. -/
def Obligations.CanonicalFormsAreUnique : Prop :=
  (∀ m n : Memory, m.wf = true → n.wf = true → (∀ a, m.read a = n.read a) → m = n) ∧
  (∀ p q : BreakpointSet, p.wf = true → q.wf = true → (∀ a, a ∈ p ↔ a ∈ q) → p = q)

/-- D19, log 16: whatever the bounds of the text-output window, its words are ordinary data-region memory, which a
store writes and a read returns. -/
def Obligations.TextWindowIsOrdinaryMemory : Prop :=
  ∀ (w : TextWindow) (s : State) (a : Addr) (v : Word), w.wellFormed = true →
    w.lo.toNat ≤ a.toNat → a.toNat ≤ w.hi.toNat →
    (s.writeMem a v).1 = .ok ∧ (s.writeMem a v).2.readMem a = v

/-! ## Operands -/

/-- 30_encoding.md R57, 42_load_store.md R90: the immediate is 0 to 127 and the effective address is a sum modulo
2^16; with base register 0 it is the immediate. Rests on D2, D5, D6 (log 2, 5). -/
def Obligations.EffectiveAddressRule : Prop :=
  ∀ (s : State) (rB : Reg) (imm7 : BitVec 7),
    (immOperand imm7).toNat = imm7.toNat ∧
    (s.effectiveAddress rB imm7).toNat = ((s.readReg rB).toNat + imm7.toNat) % 65536 ∧
    (s.effectiveAddress .r0 imm7).toNat = imm7.toNat

/-- 00_scope.md R5, D2 to D4: where the parameter values not taken agree with the ones taken, and what they give
where they differ. The rejecting `programOnly` is the model's reading (log 2, 3, 4). -/
def Obligations.ParameterAlternatives : Prop :=
  (∀ i : BitVec 7, i.toNat < 64 → imm7Operand .sign i = imm7Operand .zero i) ∧
  (∀ i : BitVec 7, 64 ≤ i.toNat → imm7Operand .sign i = imm7Operand .zero i - 128) ∧
  (∀ i : BitVec 10, luiValue .merge 0 i = luiValue .overwrite 0 i) ∧
  (∀ (old : Word) (i : BitVec 10), luiValue .merge old i = old ||| luiValue .overwrite 0 i) ∧
  (∀ a : Addr, pcAccepts .full a = true ∧ (pcAccepts .programOnly a = true ↔ a.toNat ≤ 0x1FFF))

/-! ## The eight instructions: result and frame -/

/-- 41_arithmetic_logic.md section 2. The sum is modulo 2^16 (D6, log 5). -/
def Obligations.AddResultAndFrame : Prop :=
  ∀ (rA rB rC : Reg) (s : State), ∃ t, exec (.add rA rB rC) s = .next t ∧
    (∀ r, t.readReg r = if r = rA ∧ rA ≠ .r0 then s.readReg rB + s.readReg rC else s.readReg r) ∧
    t.pc = s.pc + 1 ∧ (∀ a, t.readMem a = s.readMem a) ∧ t.bp = s.bp

/-- 41_arithmetic_logic.md section 3. The immediate is zero-extended (D2, log 2), the sum modulo 2^16 (D6, log 5). -/
def Obligations.AddiResultAndFrame : Prop :=
  ∀ (rA rB : Reg) (imm7 : BitVec 7) (s : State), ∃ t, exec (.addi rA rB imm7) s = .next t ∧
    (∀ r, t.readReg r =
      if r = rA ∧ rA ≠ .r0 then s.readReg rB + BitVec.ofNat 16 imm7.toNat else s.readReg r) ∧
    t.pc = s.pc + 1 ∧ (∀ a, t.readMem a = s.readMem a) ∧ t.bp = s.bp

/-- 41_arithmetic_logic.md section 4: result bit k is 1 unless both source bits are 1. The advance wraps (D6, log 5). -/
def Obligations.NandResultAndFrame : Prop :=
  ∀ (rA rB rC : Reg) (s : State), ∃ t, exec (.nand rA rB rC) s = .next t ∧
    (rA ≠ .r0 → ∀ k, k < 16 →
      (t.readReg rA).getLsbD k = !((s.readReg rB).getLsbD k && (s.readReg rC).getLsbD k)) ∧
    (∀ r, r ≠ rA ∨ rA = .r0 → t.readReg r = s.readReg r) ∧
    t.pc = s.pc + 1 ∧ (∀ a, t.readMem a = s.readMem a) ∧ t.bp = s.bp

/-- 41_arithmetic_logic.md section 5: bits 15:6 are the immediate, bits 5:0 are 0, whatever the register held
(`LUI_MODE = overwrite`, D4, log 4). -/
def Obligations.LuiResultAndFrame : Prop :=
  ∀ (rA : Reg) (imm10 : BitVec 10) (s : State), ∃ t, exec (.lui rA imm10) s = .next t ∧
    (∀ r, t.readReg r = if r = rA ∧ rA ≠ .r0 then BitVec.ofNat 16 (imm10.toNat * 64) else s.readReg r) ∧
    t.pc = s.pc + 1 ∧ (∀ a, t.readMem a = s.readMem a) ∧ t.bp = s.bp

/-- 42_load_store.md section 2: a store to the data region writes the one word at the effective address, a store to the
program region writes nothing; both advance and change no register (D2, D6, D10; log 2, 5, 8). -/
def Obligations.SwResultAndFrame : Prop :=
  ∀ (rA rB : Reg) (imm7 : BitVec 7) (s : State), ∃ t, exec (.sw rA rB imm7) s = .next t ∧
    (0x2000 ≤ (s.effectiveAddress rB imm7).toNat → t.readMem (s.effectiveAddress rB imm7) = s.readReg rA) ∧
    ((s.effectiveAddress rB imm7).toNat ≤ 0x1FFF →
      t.readMem (s.effectiveAddress rB imm7) = s.readMem (s.effectiveAddress rB imm7)) ∧
    (∀ a, a ≠ s.effectiveAddress rB imm7 → t.readMem a = s.readMem a) ∧
    (∀ r, t.readReg r = s.readReg r) ∧ t.pc = s.pc + 1 ∧ t.bp = s.bp

/-- 42_load_store.md section 3: the word at the effective address, in either region (D2, D6; log 2, 5). -/
def Obligations.LwResultAndFrame : Prop :=
  ∀ (rA rB : Reg) (imm7 : BitVec 7) (s : State), ∃ t, exec (.lw rA rB imm7) s = .next t ∧
    (∀ r, t.readReg r =
      if r = rA ∧ rA ≠ .r0 then s.readMem (s.effectiveAddress rB imm7) else s.readReg r) ∧
    t.pc = s.pc + 1 ∧ (∀ a, t.readMem a = s.readMem a) ∧ t.bp = s.bp

/-- 43_control_transfer.md section 1 (D2, D3, D5, D6; log 2, 3, 5): the branch is taken exactly when the two registers
are equal, and goes 1 + imm words forward. -/
def Obligations.BeqResultAndFrame : Prop :=
  ∀ (rA rB : Reg) (imm7 : BitVec 7) (s : State), ∃ t, exec (.beq rA rB imm7) s = .next t ∧
    (s.readReg rA = s.readReg rB → t.pc.toNat = (s.pc.toNat + 1 + imm7.toNat) % 65536) ∧
    (s.readReg rA ≠ s.readReg rB → t.pc.toNat = (s.pc.toNat + 1) % 65536) ∧
    (∀ r, t.readReg r = s.readReg r) ∧ (∀ a, t.readMem a = s.readMem a) ∧ t.bp = s.bp

/-- 43_control_transfer.md section 2 (D3, D6, D7; log 3, 5, 6): the link is written first, so with rA = rB not 0 the
instruction falls through. -/
def Obligations.JalrResultAndFrame : Prop :=
  ∀ (rA rB : Reg) (imm7 : BitVec 7) (s : State), ∃ t, exec (.jalr rA rB imm7) s = .next t ∧
    (∀ r, t.readReg r = if r = rA ∧ rA ≠ .r0 then s.pc + 1 else s.readReg r) ∧
    t.pc = (if rA = rB ∧ rA ≠ .r0 then s.pc + 1 else s.readReg rB) ∧
    (∀ a, t.readMem a = s.readMem a) ∧ t.bp = s.bp

/-- 41_arithmetic_logic.md section 5, corner cases: LUI with K[15:6] then ADDI with K[5:0] puts any constant K into a
register that has storage (D1, D2, D4; log 1, 2, 4). -/
def Obligations.LuiThenAddiBuildsAnyConstant : Prop :=
  ∀ (K : Word) (rA : Reg) (s : State), rA ≠ .r0 →
    ∃ t u, exec (.lui rA (K.extractLsb' 6 10)) s = .next t ∧
      exec (.addi rA rA ((K.extractLsb' 0 6).setWidth 7)) t = .next u ∧
      u.readReg rA = K ∧ ∀ r, r ≠ rA → u.readReg r = s.readReg r

/-- 42_load_store.md sections 2 and 3: what a load at the address of the store before it gives: the stored value from
the data region, the old word from the program region, where the store was rejected (D6, D10; log 5, 8). -/
def Obligations.LoadAfterStore : Prop :=
  ∀ (rA rB rD : Reg) (imm7 : BitVec 7) (s : State), rD ≠ .r0 →
    ∃ t u, exec (.sw rA rB imm7) s = .next t ∧ exec (.lw rD rB imm7) t = .next u ∧
      u.readReg rD = if 0x2000 ≤ (s.effectiveAddress rB imm7).toNat then s.readReg rA
        else s.readMem (s.effectiveAddress rB imm7)

/-! ## The tick -/

/-- 40_sequencer_tick.md R70: a tick executes the instruction decoded from the word at the program counter, in the
state as it was fetched from; the model's step adds nothing around it. -/
def Obligations.StepRunsTheDecodedInstruction : Prop :=
  ∀ (s : State) (i : Instr), decode (s.readMem s.pc) = i → i.wellFormed = true → step s = exec i s

/-- 60_exceptions.md section 4, D24 (log 19): the current instruction shown to the host is the one the next tick
executes. -/
def Obligations.CurrentInstructionIsNext : Prop :=
  ∀ s : State, step s = exec (currentInstr s) s

/-- The model's placing of a word (log 12): it is fetched and run by the next step, and nothing else is changed. -/
def Obligations.PlacedWordRunsNext : Prop :=
  ∀ (s : State) (w : Nat), w < 65536 →
    step (s.withFetchWord 16 w) = exec (decode (BitVec.ofNat 16 w)) (s.withFetchWord 16 w) ∧
    (s.withFetchWord 16 w).regs = s.regs ∧ (s.withFetchWord 16 w).pc = s.pc ∧
    (s.withFetchWord 16 w).bp = s.bp ∧
    ∀ a, a ≠ s.pc → (s.withFetchWord 16 w).readMem a = s.readMem a

/-- 40_sequencer_tick.md section 1 (derived there): every instruction and every tick completes, from every state. -/
def Obligations.EveryTickCompletes : Prop :=
  (∀ (i : Instr) (s : State), Completes (exec i s)) ∧ ∀ s : State, Completes (step s)

/-- 40_sequencer_tick.md R74: the next tick depends on the registers, the program counter and memory only, and a tick
neither reads nor changes the breakpoint set. -/
def Obligations.TickDependsOnRegistersPcMemory : Prop :=
  ∀ s s' t : State, (∀ r, s.readReg r = s'.readReg r) → s.pc = s'.pc → (∀ a, s.readMem a = s'.readMem a) →
    step s = .next t →
    ∃ t', step s' = .next t' ∧ (∀ r, t.readReg r = t'.readReg r) ∧ t.pc = t'.pc ∧
      (∀ a, t.readMem a = t'.readMem a) ∧ t.bp = s.bp ∧ t'.bp = s'.bp

/-- Over all instructions (42_load_store.md section 2, 10_state.md section 1): a tick changes a word of memory only by
an SW, only at its effective address, only in the data region, and to the value of its rA. -/
def Obligations.OnlyStoreChangesMemory : Prop :=
  ∀ (s t : State) (a : Addr), step s = .next t → t.readMem a ≠ s.readMem a →
    ∃ (rA rB : Reg) (imm7 : BitVec 7), decode (s.readMem s.pc) = .sw rA rB imm7 ∧
      a = s.effectiveAddress rB imm7 ∧ 0x2000 ≤ a.toNat ∧ t.readMem a = s.readReg rA

/-- Over all instructions (10_state.md section 2, the table of reads and writes): a tick changes no register but the
one its rA field names, never register 0, and none by SW and BEQ. -/
def Obligations.OnlyTheNamedRegisterChanges : Prop :=
  ∀ (s t : State) (r : Reg), step s = .next t → t.readReg r ≠ s.readReg r →
    r = Reg.ofBits ((s.readMem s.pc).extractLsb' 10 3) ∧ r ≠ .r0 ∧
      (decode (s.readMem s.pc)).opcode ≠ .sw ∧ (decode (s.readMem s.pc)).opcode ≠ .beq

/-- 43_control_transfer.md section 3: the successor of every instruction. BEQ's offset is zero-extended and not reduced
further (D2, D5; log 2), every successor may lie in either region (`PC_RANGE = full`, D3, log 3), sums wrap (D6, log 5),
and JALR's successor is the value of rB as read after the link write (D7, log 6). -/
def Obligations.SuccessorOfEveryInstruction : Prop :=
  ∀ s : State, ∃ t, step s = .next t ∧
    match decode (s.readMem s.pc) with
    | .add _ _ _ | .addi _ _ _ | .nand _ _ _ | .lui _ _ | .sw _ _ _ | .lw _ _ _ => t.pc = s.pc + 1
    | .beq rA rB imm7 =>
      t.pc = if s.readReg rA = s.readReg rB then s.pc + 1 + BitVec.ofNat 16 imm7.toNat else s.pc + 1
    | .jalr _ rB _ => t.pc = t.readReg rB

/-- 43_control_transfer.md section 3, last sentences, read modulo 2^16 (D6; log 5, 20): a tick of any instruction but
JALR moves the program counter forward by 1 to 128. Forward, and at most 128, rest on BEQ's zero-extended offset (D2, D5;
log 2), and that the move always happens on `PC_RANGE = full` (D3, log 3). -/
def Obligations.OnlyJalrJumpsAnywhere : Prop :=
  ∀ s t : State, step s = .next t → (decode (s.readMem s.pc)).opcode ≠ .jalr →
    1 ≤ (t.pc - s.pc).toNat ∧ (t.pc - s.pc).toNat ≤ 128

/-- The model's invariant (log 9, 10): a tick from any canonical state, reached or not, gives a canonical state. -/
def Obligations.StepKeepsCanonicalForm : Prop :=
  ∀ s t : State, s.wf = true → step s = .next t → t.wf = true

/-- The model's invariant (log 9, 10) holds after reset. -/
def Obligations.ResetIsCanonical : Prop := State.reset.wf = true

/-- 20_memory.md section 6 (derived there): a store to the next word, in the data region, is what the next tick
executes. The next fetch is then from the data region, which `PC_RANGE = full` allows (D3, log 3). -/
def Obligations.StoredWordIsFetchedNext : Prop :=
  ∀ (s : State) (rA rB : Reg) (imm7 : BitVec 7), decode (s.readMem s.pc) = .sw rA rB imm7 →
    s.effectiveAddress rB imm7 = s.pc + 1 → 0x2000 ≤ (s.pc + 1).toNat →
    ∃ t, step s = .next t ∧ step t = exec (decode (s.readReg rA)) t

/-- 30_encoding.md section 6 (derived there), 95_test_vectors.md L2: with all of memory zero, n ticks advance the
program counter by n modulo 2^16, through both regions, and change nothing else (D3, D6; log 3, 5). -/
def Obligations.ZeroedMemoryRunsAsNoOperations : Prop :=
  ∀ (n : Nat) (s : State), (∀ a, s.readMem a = 0) →
    stepN n s = .next { s with pc := s.pc + BitVec.ofNat 16 n }

/-- 43_control_transfer.md section 2, corner cases; 70_reset_and_hazards.md section 3: a jump to its own address without
a link spins for ever, changing nothing. -/
def Obligations.UnlinkedSelfJumpSpins : Prop :=
  ∀ (n : Nat) (s : State) (rB : Reg) (imm7 : BitVec 7), decode (s.readMem s.pc) = .jalr .r0 rB imm7 →
    s.readReg rB = s.pc → stepN n s = .next s

/-! ## Reset -/

/-- 10_state.md section 7, 70_reset_and_hazards.md section 1: the session reset leaves every register, the program
counter and every word zero and the breakpoint set empty, from any state, and is the model's reset state (D13,
log 11). -/
def Obligations.SessionResetZeroesEverything : Prop :=
  ∀ s : State, (∀ r, (sessionReset s).readReg r = 0) ∧ (sessionReset s).pc = 0 ∧
    (∀ a, (sessionReset s).readMem a = 0) ∧ (∀ a, a ∉ (sessionReset s).bp) ∧ sessionReset s = State.reset

/-- 70_reset_and_hazards.md section 1: the register reset zeroes the registers and the program counter and keeps memory
and breakpoints (D13, log 11). -/
def Obligations.RegisterResetKeepsMemory : Prop :=
  ∀ s : State, ∃ t, hostOp .regReset s = .next (.ok, t) ∧ (∀ r, t.readReg r = 0) ∧ t.pc = 0 ∧
    (∀ a, t.readMem a = s.readMem a) ∧ t.bp = s.bp

/-! ## The host's operations -/

/-- 60_exceptions.md R123: poke stores at any address, returns no error and changes nothing else; a poke at the
program counter is executed as poked by the next tick. -/
def Obligations.PokeStoresAnywhere : Prop :=
  ∀ (s : State) (a : Addr) (v : Word), ∃ t, hostOp (.poke a v) s = .next (.ok, t) ∧
    (∀ b, t.readMem b = if b = a then v else s.readMem b) ∧
    (∀ r, t.readReg r = s.readReg r) ∧ t.pc = s.pc ∧ t.bp = s.bp ∧
    (a = s.pc → step t = exec (decode v) t)

/-- 60_exceptions.md section 4, set-pc: any address is accepted, nothing else changes, and the next tick fetches from
it (D3, log 3). -/
def Obligations.SetPcAcceptsAnyAddress : Prop :=
  ∀ (s : State) (a : Addr), ∃ t, hostOp (.setPc a) s = .next (.ok, t) ∧ t.pc = a ∧
    (∀ r, t.readReg r = s.readReg r) ∧ (∀ b, t.readMem b = s.readMem b) ∧ t.bp = s.bp ∧
    step t = exec (decode (s.readMem a)) t

/-- 60_exceptions.md section 4, step(n): no tick for 0, one tick then n for n + 1, and it always completes (D22,
log 15). -/
def Obligations.StepNPerformsNTicks : Prop :=
  ∀ (n : Nat) (s : State), stepN 0 s = .next s ∧
    (∃ t, step s = .next t ∧ stepN (n + 1) s = stepN n t) ∧
    ∃ u, stepN n s = .next u ∧ hostOp (.step n) s = .next (.ok, u)

/-- 60_exceptions.md section 4, step(n): m ticks then n ticks are m + n ticks. -/
def Obligations.StepCountsAdd : Prop :=
  ∀ (m n : Nat) (s t : State), stepN m s = .next t → stepN (m + n) s = stepN n t

/-- 60_exceptions.md sections 4 and 6: no number of ticks sees the breakpoint set or changes it. -/
def Obligations.BreakpointsAreInvisibleToTicks : Prop :=
  ∀ (n : Nat) (s t : State) (b : BreakpointSet), stepN n s = .next t →
    stepN n { s with bp := b } = .next { t with bp := b }

/-- 60_exceptions.md R126: add-breakpoint adds the address, is a no-op on a member, and keeps each member once; nothing
else changes. -/
def Obligations.AddBreakpointAddsOneMember : Prop :=
  ∀ (s : State) (a : Addr), ∃ t, hostOp (.addBreakpoint a) s = .next (.ok, t) ∧
    (∀ b, b ∈ t.bp ↔ b = a ∨ b ∈ s.bp) ∧ (a ∈ s.bp → t = s) ∧ (s.bp.Nodup → t.bp.Nodup) ∧
    hostOp (.addBreakpoint a) t = .next (.ok, t) ∧
    (∀ r, t.readReg r = s.readReg r) ∧ t.pc = s.pc ∧ (∀ c, t.readMem c = s.readMem c)

/-- 60_exceptions.md R127: remove-breakpoint removes the address and is a no-op on an absent one; nothing else
changes. -/
def Obligations.RemoveBreakpointRemovesOnlyIt : Prop :=
  ∀ (s : State) (a : Addr), ∃ t, hostOp (.removeBreakpoint a) s = .next (.ok, t) ∧
    (∀ b, b ∈ t.bp ↔ b ∈ s.bp ∧ b ≠ a) ∧ (a ∉ s.bp → t = s) ∧
    (∀ r, t.readReg r = s.readReg r) ∧ t.pc = s.pc ∧ (∀ c, t.readMem c = s.readMem c)

/-- 60_exceptions.md section 4, run-to-breakpoint; the source's Scenario D for any number of ticks: with no
cancellation up to then, it stops after exactly the first tick (there is at least one) whose program counter is a
breakpoint (D20, log 13). -/
def Obligations.RunStopsAtTheFirstBreakpoint : Prop :=
  ∀ (k : Nat) (s t : State) (polls : List Bool), stepN (k + 1) s = .next t → t.pc ∈ s.bp →
    (∀ (j : Nat) (u : State), 1 ≤ j → j ≤ k → stepN j s = .next u → u.pc ∉ s.bp) →
    runToBreakpoint (List.replicate (k + 1) false ++ polls) s = .next (.hitBreakpoint t.pc, t)

/-- 60_exceptions.md section 4, run-to-breakpoint: as long as no tick arrives at a breakpoint it goes on, and a
cancellation seen at poll k + 1 ends it after exactly k ticks, none for the first poll (D20, log 13). -/
def Obligations.RunEndsOnCancellationBetweenTicks : Prop :=
  ∀ (k : Nat) (s t : State) (polls : List Bool), stepN k s = .next t →
    (∀ (j : Nat) (u : State), 1 ≤ j → j ≤ k → stepN j s = .next u → u.pc ∉ s.bp) →
    runToBreakpoint (List.replicate k false ++ true :: polls) s = .next (.cancelled, t) ∧
    runToBreakpoint (List.replicate k false) s = .next (.stillRunning, t)

/-- 60_exceptions.md section 4, run-to-breakpoint: however it ends, the state is one at a tick boundary, and the reply
says why (D20, log 13). -/
def Obligations.RunEndsAtATickBoundary : Prop :=
  ∀ (polls : List Bool) (s : State), ∃ (n : Nat) (r : Reply) (t : State),
    runToBreakpoint polls s = .next (r, t) ∧ n ≤ polls.length ∧ stepN n s = .next t ∧
      ((r = .hitBreakpoint t.pc ∧ t.pc ∈ s.bp ∧ 1 ≤ n) ∨ (r = .cancelled ∧ polls[n]? = some true) ∨
        (r = .stillRunning ∧ n = polls.length))

/-- 60_exceptions.md sections 2 and 4: over any session, the program region changes only by a poke into it. Assuming
D13 (log 11): a session may contain the register reset of 70_reset_and_hazards.md section 1, and that it leaves memory
unchanged is the spec's decision. A rejected store leaves memory unchanged by D10 (log 8). -/
def Obligations.ProgramRegionChangesOnlyByPoke : Prop :=
  ∀ (ops : List HostOp) (s t : State), (∀ op ∈ ops, op.pokesProgramRegion = false) →
    session ops s = .next t → SameProgramRegion s t

/-- The model's invariant (log 9, 10) is kept by every session. That every session answers a state is the model's
too and no rule of the spec (log 13): the polls of a run are a finite list, and a run that has used them up answers
`stillRunning`, whereupon the session gives the state reached and begins no later operation; by 60_exceptions.md R128 (d)
the run of the hardware may never return. -/
def Obligations.SessionsKeepCanonicalForm : Prop :=
  ∀ (ops : List HostOp) (s : State), s.wf = true → ∃ t, session ops s = .next t ∧ t.wf = true

/-- 60_exceptions.md sections 1 and 5 (D23, log 15): a malformed command gives `ArgumentError` and changes nothing; any
other command is its operation. -/
def Obligations.MalformedCommandChangesNothing : Prop :=
  ∀ (s : State) (op : HostOp), command none s = .next (.error .argumentError, s) ∧
    command (some op) s = hostOp op s

/-! ## Loading -/

/-- 70_reset_and_hazards.md section 2, Load (D18, log 14): a load of words alone succeeds; token k goes to address k,
for the first 8192 tokens, and nothing else changes; after 8192 words the rest is not read, a bad token included. -/
def Obligations.LoadFillsTheProgramRegion : Prop :=
  ∀ (ws : List Word) (s : State),
    (∃ t, load (.tokens (ws.map .word)) s = (.ok, t) ∧
      (∀ a, t.readMem a = if a.toNat < ws.length ∧ a.toNat ≤ 0x1FFF then ws.getD a.toNat 0 else s.readMem a) ∧
      t.regs = s.regs ∧ t.pc = s.pc ∧ t.bp = s.bp) ∧
    (ws.length = 8192 → ∀ rest, load (.tokens (ws.map .word ++ rest)) s = load (.tokens (ws.map .word)) s)

/-- 70_reset_and_hazards.md R145: a load that fails. An unopenable source leaves memory all zero; a bad token at
position k leaves words 0 to k - 1 loaded and the rest zero; the core can be ticked afterwards. -/
def Obligations.FailedLoadKeepsWhatWasLoaded : Prop :=
  ∀ s : State,
    (∃ t, boot .unopenable s = (.err .ioError, t) ∧ (∀ a, t.readMem a = 0) ∧ Completes (step t)) ∧
    (∀ (ws : List Word) (rest : List Token), ws.length ≤ 0x1FFF →
      ∃ t, boot (.tokens (ws.map .word ++ .bad :: rest)) s = (.err .rangeError, t) ∧
        (∀ a, t.readMem a = if a.toNat < ws.length then ws.getD a.toNat 0 else 0) ∧ Completes (step t))

/-! ## The blocks at their ports (D11, log 17) -/

/-- 95_test_vectors.md, table E, the laws for every word: each decoder port is the shift and mask of the word. -/
def Obligations.DecoderPortsAreShiftsAndMasks : Prop :=
  ∀ w : Word,
    (decoderPorts w).opcode.toNat = w.toNat / 2 ^ 13 ∧
    (decoderPorts w).rA.toNat = w.toNat / 2 ^ 10 % 8 ∧
    (decoderPorts w).rB.toNat = w.toNat / 2 ^ 7 % 8 ∧
    (decoderPorts w).rC.toNat = w.toNat % 8 ∧
    (decoderPorts w).imm7.toNat = w.toNat % 128 ∧
    (decoderPorts w).imm10.toNat = w.toNat % 1024 ∧
    (decoderPorts w).raw = w

/-- 20_memory.md section 7: the memory controller at its ports does what the primitives do: with `we = 1` the unforced
or the forced write by `forced`, `err` exactly on `ProtectionError`; with `we = 0` nothing. With `we = 1`, `rdata` is the
word before the write: that clause is the model's choice (log 17). `reset = 0` throughout; the reset is the statement
`MemoryPortsResetZeroesEveryWord`. -/
def Obligations.MemoryPortsRefineThePrimitives : Prop :=
  ∀ (m : Memory) (a : Addr) (v : Word) (forced : Bool),
    memoryPorts { addr := a, wdata := v, we := true, forced := false, reset := false } m =
      ({ rdata := m.read a, err := decide ((m.writeUnforced a v).1 = .err .protectionError) },
        (m.writeUnforced a v).2) ∧
    memoryPorts { addr := a, wdata := v, we := true, forced := true, reset := false } m =
      ({ rdata := m.read a, err := false }, (m.writeForced a v).2) ∧
    memoryPorts { addr := a, wdata := v, we := false, forced := forced, reset := false } m =
      ({ rdata := m.read a, err := false }, m)

/-- 10_state.md section 8: the register file at its ports reads two registers of the state before, writes one, and
loads, increments or keeps the program counter; `reset` is the register reset, which leaves memory and breakpoints
unchanged by D13 (log 11). That the reset wins over a write, a load or an increment of the same access is the model's
choice (log 17). -/
def Obligations.RegFilePortsRefineTheOperations : Prop :=
  ∀ (p : RegFileIn) (s : State),
    (regFilePorts p s).1 = { rdata1 := s.readReg (Reg.ofBits p.raddr1), rdata2 := s.readReg (Reg.ofBits p.raddr2),
                             pcOut := s.pc } ∧
    (p.reset = true → (regFilePorts p s).2 = regReset s) ∧
    (p.reset = false → ∀ r, (regFilePorts p s).2.readReg r =
      if p.we = true ∧ r = Reg.ofBits p.waddr ∧ r ≠ .r0 then p.wdata else s.readReg r) ∧
    (p.reset = false → (regFilePorts p s).2.pc =
      if p.pcLoad = true then p.pcIn else if p.pcInc = true then s.pc + 1 else s.pc) ∧
    (regFilePorts p s).2.mem = s.mem ∧ (regFilePorts p s).2.bp = s.bp

/-- 40_sequencer_tick.md R75, section 2: without a request the state does not change; with one, exactly one tick
happens and is reported done. That `tick_done` is 0 without a request is the model's choice (log 17). -/
def Obligations.CoreTicksOnlyOnRequest : Prop :=
  ∀ s : State, sequencerPorts false s = .next (false, s) ∧
    ∃ t, step s = .next t ∧ sequencerPorts true s = .next (true, t)

/-- 20_memory.md section 7: with `reset = 1` every word is zero after the access, and `err` is 1 exactly on an unforced
write into the program region, as without the reset. That the reset wins over a write of the same access, and
that `rdata` is the word before it, are the model's choices (log 17). -/
def Obligations.MemoryPortsResetZeroesEveryWord : Prop :=
  ∀ (p : MemoryIn) (m : Memory), p.reset = true →
    (∀ a, (memoryPorts p m).2.read a = 0) ∧ (memoryPorts p m).1.rdata = m.read p.addr ∧
    ((memoryPorts p m).1.err = true ↔ p.we = true ∧ p.forced = false ∧ p.addr.toNat ≤ 0x1FFF)
end

