-- ==== Sys2Proof/Laws/State.lean ====
section
/-! SUPPORT. One lemma per field per update of State, each true by unfolding it once. -/

namespace Sys2Proof.Machine

/-! `writeReg` -/

@[simp] theorem State.writeReg_regs (s : State) (r : Reg) (v : Word) : (s.writeReg r v).regs = s.regs.write r v := rfl
@[simp] theorem State.writeReg_pc (s : State) (r : Reg) (v : Word) : (s.writeReg r v).pc = s.pc := rfl
@[simp] theorem State.writeReg_mem (s : State) (r : Reg) (v : Word) : (s.writeReg r v).mem = s.mem := rfl
@[simp] theorem State.writeReg_bp (s : State) (r : Reg) (v : Word) : (s.writeReg r v).bp = s.bp := rfl
@[simp] theorem State.writeReg_readMem (s : State) (r : Reg) (v : Word) (a : Addr) :
    (s.writeReg r v).readMem a = s.readMem a := rfl

/-! `writePc` and `incPc` -/

@[simp] theorem State.writePc_pc (s : State) (t : Addr) : (s.writePc t).pc = t := rfl
@[simp] theorem State.writePc_regs (s : State) (t : Addr) : (s.writePc t).regs = s.regs := rfl
@[simp] theorem State.writePc_mem (s : State) (t : Addr) : (s.writePc t).mem = s.mem := rfl
@[simp] theorem State.writePc_bp (s : State) (t : Addr) : (s.writePc t).bp = s.bp := rfl
@[simp] theorem State.writePc_readReg (s : State) (t : Addr) (r : Reg) : (s.writePc t).readReg r = s.readReg r := rfl
@[simp] theorem State.writePc_readMem (s : State) (t a : Addr) : (s.writePc t).readMem a = s.readMem a := rfl

@[simp] theorem State.incPc_pc (s : State) : s.incPc.pc = s.pc + 1 := rfl
@[simp] theorem State.incPc_regs (s : State) : s.incPc.regs = s.regs := rfl
@[simp] theorem State.incPc_mem (s : State) : s.incPc.mem = s.mem := rfl
@[simp] theorem State.incPc_bp (s : State) : s.incPc.bp = s.bp := rfl
@[simp] theorem State.incPc_readReg (s : State) (r : Reg) : s.incPc.readReg r = s.readReg r := rfl
@[simp] theorem State.incPc_readMem (s : State) (a : Addr) : s.incPc.readMem a = s.readMem a := rfl

/-! `retire` -/

@[simp] theorem State.retire_regs (s : State) (r : Reg) (v : Word) : (s.retire r v).regs = s.regs.write r v := rfl
@[simp] theorem State.retire_pc (s : State) (r : Reg) (v : Word) : (s.retire r v).pc = s.pc + 1 := rfl
@[simp] theorem State.retire_mem (s : State) (r : Reg) (v : Word) : (s.retire r v).mem = s.mem := rfl
@[simp] theorem State.retire_bp (s : State) (r : Reg) (v : Word) : (s.retire r v).bp = s.bp := rfl
@[simp] theorem State.retire_readMem (s : State) (r : Reg) (v : Word) (a : Addr) :
    (s.retire r v).readMem a = s.readMem a := rfl

/-! `writeMem` and `pokeMem` -/

@[simp] theorem State.writeMem_regs (s : State) (a : Addr) (v : Word) : (s.writeMem a v).2.regs = s.regs := rfl
@[simp] theorem State.writeMem_pc (s : State) (a : Addr) (v : Word) : (s.writeMem a v).2.pc = s.pc := rfl
@[simp] theorem State.writeMem_mem (s : State) (a : Addr) (v : Word) :
    (s.writeMem a v).2.mem = (s.mem.writeUnforced a v).2 := rfl
@[simp] theorem State.writeMem_bp (s : State) (a : Addr) (v : Word) : (s.writeMem a v).2.bp = s.bp := rfl
@[simp] theorem State.writeMem_result (s : State) (a : Addr) (v : Word) :
    (s.writeMem a v).1 = (s.mem.writeUnforced a v).1 := rfl
@[simp] theorem State.writeMem_readReg (s : State) (a : Addr) (v : Word) (r : Reg) :
    (s.writeMem a v).2.readReg r = s.readReg r := rfl

@[simp] theorem State.pokeMem_regs (s : State) (a : Addr) (v : Word) : (s.pokeMem a v).2.regs = s.regs := rfl
@[simp] theorem State.pokeMem_pc (s : State) (a : Addr) (v : Word) : (s.pokeMem a v).2.pc = s.pc := rfl
@[simp] theorem State.pokeMem_mem (s : State) (a : Addr) (v : Word) :
    (s.pokeMem a v).2.mem = (s.mem.writeForced a v).2 := rfl
@[simp] theorem State.pokeMem_bp (s : State) (a : Addr) (v : Word) : (s.pokeMem a v).2.bp = s.bp := rfl
@[simp] theorem State.pokeMem_result (s : State) (a : Addr) (v : Word) : (s.pokeMem a v).1 = .ok := rfl
@[simp] theorem State.pokeMem_readReg (s : State) (a : Addr) (v : Word) (r : Reg) :
    (s.pokeMem a v).2.readReg r = s.readReg r := rfl

/-! `placeFetchWord` and `withFetchWord` -/

@[simp] theorem State.placeFetchWord_regs (s : State) (w : Word) : (s.placeFetchWord w).regs = s.regs := rfl
@[simp] theorem State.placeFetchWord_pc (s : State) (w : Word) : (s.placeFetchWord w).pc = s.pc := rfl
@[simp] theorem State.placeFetchWord_mem (s : State) (w : Word) : (s.placeFetchWord w).mem = s.mem.set s.pc w := rfl
@[simp] theorem State.placeFetchWord_bp (s : State) (w : Word) : (s.placeFetchWord w).bp = s.bp := rfl
@[simp] theorem State.withFetchWord_eq (s : State) (n w : Nat) :
    s.withFetchWord n w = s.placeFetchWord (tableWord n w) := rfl

/-! The host's updates -/

@[simp] theorem addBreakpoint_regs (a : Addr) (s : State) : (addBreakpoint a s).regs = s.regs := rfl
@[simp] theorem addBreakpoint_pc (a : Addr) (s : State) : (addBreakpoint a s).pc = s.pc := rfl
@[simp] theorem addBreakpoint_mem (a : Addr) (s : State) : (addBreakpoint a s).mem = s.mem := rfl
@[simp] theorem addBreakpoint_bp (a : Addr) (s : State) : (addBreakpoint a s).bp = s.bp.add a := rfl

@[simp] theorem removeBreakpoint_regs (a : Addr) (s : State) : (removeBreakpoint a s).regs = s.regs := rfl
@[simp] theorem removeBreakpoint_pc (a : Addr) (s : State) : (removeBreakpoint a s).pc = s.pc := rfl
@[simp] theorem removeBreakpoint_mem (a : Addr) (s : State) : (removeBreakpoint a s).mem = s.mem := rfl
@[simp] theorem removeBreakpoint_bp (a : Addr) (s : State) : (removeBreakpoint a s).bp = s.bp.remove a := rfl

@[simp] theorem regReset_regs (s : State) : (regReset s).regs = Regs.zero := rfl
@[simp] theorem regReset_pc (s : State) : (regReset s).pc = 0 := rfl
@[simp] theorem regReset_mem (s : State) : (regReset s).mem = s.mem := rfl
@[simp] theorem regReset_bp (s : State) : (regReset s).bp = s.bp := rfl

@[simp] theorem State.reset_regs : State.reset.regs = Regs.zero := rfl
@[simp] theorem State.reset_pc : State.reset.pc = 0 := rfl
@[simp] theorem State.reset_mem : State.reset.mem = [] := rfl
@[simp] theorem State.reset_bp : State.reset.bp = [] := rfl

end Sys2Proof.Machine
end

