-- ==== Sys2Proof/Laws/Registers.lean ====
section
/-! SUPPORT. What a read of a register gives after each operation, and the values the parameters fix. -/

namespace Sys2Proof.Machine

@[simp] theorem Regs.read_r0 (g : Regs) : g.read .r0 = 0 := rfl
@[simp] theorem State.readReg_r0 (s : State) : s.readReg .r0 = 0 := rfl
@[simp] theorem Regs.write_r0 (g : Regs) (v : Word) : g.write .r0 v = g := rfl

/-- A write of the register file changes the register written, if it has storage, and no other. -/
theorem Regs.read_write (g : Regs) (r q : Reg) (v : Word) :
    (g.write r v).read q = if q = r ∧ r ≠ .r0 then v else g.read q := by
  cases r <;> cases q <;> rfl

theorem Regs.read_write_same (g : Regs) {r : Reg} (h : r ≠ .r0) (v : Word) : (g.write r v).read r = v := by
  rw [Regs.read_write, if_pos ⟨rfl, h⟩]

theorem Regs.read_write_other (g : Regs) {r q : Reg} (h : q ≠ r) (v : Word) : (g.write r v).read q = g.read q := by
  rw [Regs.read_write, if_neg (fun c => h c.1)]

/-- Two register files that read alike are equal: no storage is unread. -/
theorem Regs.ext_read {g k : Regs} (h : ∀ r, g.read r = k.read r) : g = k := by
  cases g
  cases k
  simp only [Regs.mk.injEq]
  exact ⟨h .r1, h .r2, h .r3, h .r4, h .r5, h .r6, h .r7⟩

theorem State.readReg_writeReg (s : State) (r q : Reg) (v : Word) :
    (s.writeReg r v).readReg q = if q = r ∧ r ≠ .r0 then v else s.readReg q :=
  s.regs.read_write r q v

theorem State.readReg_retire (s : State) (r q : Reg) (v : Word) :
    (s.retire r v).readReg q = if q = r ∧ r ≠ .r0 then v else s.readReg q :=
  s.regs.read_write r q v

@[simp] theorem Regs.read_zero (r : Reg) : Regs.zero.read r = 0 := by
  cases r <;> rfl

@[simp] theorem immOperand_eq (i : BitVec 7) : immOperand i = zext16 i := rfl

theorem zext16_toNat (i : BitVec 7) : (zext16 i).toNat = i.toNat := by
  simp only [zext16, BitVec.zeroExtend_eq_setWidth, BitVec.toNat_setWidth]
  omega

@[simp] theorem luiValue_eq (old : Word) (i : BitVec 10) :
    luiValue parameters.luiMode old i = upperImmediate i := rfl

theorem upperImmediate_toNat (i : BitVec 10) : (upperImmediate i).toNat = i.toNat * 64 := by
  simp only [upperImmediate, BitVec.toNat_append, BitVec.toNat_ofNat, Nat.shiftLeft_eq]
  simp

theorem equalWords_iff (a b : Word) : equalWords a b = true ↔ a = b := by
  simp [equalWords]

theorem inProgramRegion_iff (a : Addr) : inProgramRegion a = true ↔ a.toNat ≤ 0x1FFF := by
  simp [inProgramRegion]

theorem inDataRegion_iff (a : Addr) : inDataRegion a = true ↔ 0x2000 ≤ a.toNat := by
  simp [inDataRegion]

end Sys2Proof.Machine
end

