-- ==== Sys2Proof/Laws/Memory.lean ====
section
/-! SUPPORT. The memory array: what a word reads after a write, for ANY list of cells, and that every operation keeps
the canonical form. -/

namespace Sys2Proof.Machine

theorem cellAt_eraseCell (m : List MemCell) (a b : Nat) :
    cellAt (eraseCell m a) b = if b = a then 0 else cellAt m b := by
  induction m with
  | nil => simp [eraseCell, cellAt]
  | cons c m ih =>
    obtain ⟨k, v⟩ := c
    by_cases hk : k = a
    · subst hk
      rw [eraseCell, if_pos rfl, ih]
      by_cases hb : b = k
      · simp [hb]
      · simp [hb, cellAt, Ne.symm hb]
    · rw [eraseCell, if_neg hk, cellAt, ih, cellAt]
      by_cases hb : b = a
      · subst hb
        simp [hk]
      · simp [hb]

/-- A cell inserted among cells of other addresses is the one read at its address, and no other read changes. -/
theorem cellAt_insertCell (m : List MemCell) (a : Nat) (v : Word) (h : ∀ c ∈ m, c.1 ≠ a) (b : Nat) :
    cellAt (insertCell m a v) b = if b = a then v else cellAt m b := by
  induction m with
  | nil =>
    by_cases hb : b = a
    · simp [insertCell, cellAt, hb]
    · simp [insertCell, cellAt, hb, Ne.symm hb]
  | cons c m ih =>
    obtain ⟨k, w⟩ := c
    have hk : k ≠ a := h (k, w) (by simp)
    rw [insertCell]
    split
    · by_cases hb : b = a
      · simp [cellAt, hb]
      · simp [cellAt, hb, Ne.symm hb]
    · rw [cellAt, ih (fun c hc => h c (by simp [hc])), cellAt]
      by_cases hb : b = a
      · subst hb
        simp [hk]
      · simp [hb]

theorem eraseCell_ne (m : List MemCell) (a : Nat) : ∀ c ∈ eraseCell m a, c.1 ≠ a := by
  induction m with
  | nil => simp [eraseCell]
  | cons c m ih =>
    obtain ⟨k, v⟩ := c
    rw [eraseCell]
    split
    · exact ih
    · intro c hc
      rcases List.mem_cons.mp hc with rfl | hc
      · assumption
      · exact ih c hc

/-- Read after write, for any memory. -/
theorem Memory.read_set (m : Memory) (a b : Addr) (v : Word) :
    (m.set a v).read b = if b = a then v else m.read b := by
  have hab : (b.toNat = a.toNat) = (b = a) := propext BitVec.toNat_inj
  unfold Memory.set Memory.read
  split
  · rw [cellAt_eraseCell]
    simp only [hab]
    split <;> simp [*]
  · rw [cellAt_insertCell _ _ _ (eraseCell_ne _ _), cellAt_eraseCell]
    simp only [hab]
    split <;> simp [*]

theorem Memory.read_set_same (m : Memory) (a : Addr) (v : Word) : (m.set a v).read a = v := by
  rw [Memory.read_set, if_pos rfl]

theorem Memory.read_set_other (m : Memory) {a b : Addr} (h : b ≠ a) (v : Word) : (m.set a v).read b = m.read b := by
  rw [Memory.read_set, if_neg h]

/-! The canonical form -/

theorem cellsFrom_weaken {lo lo' : Nat} (h : lo' ≤ lo) : ∀ {m : List MemCell}, cellsFrom lo m = true → cellsFrom lo' m = true
  | [], _ => rfl
  | (k, v) :: m, hm => by
    simp only [cellsFrom, Bool.and_eq_true, decide_eq_true_eq] at hm ⊢
    exact ⟨⟨⟨by omega, hm.1.1.2⟩, hm.1.2⟩, hm.2⟩

theorem cellsFrom_eraseCell (a : Nat) : ∀ {lo : Nat} {m : List MemCell},
    cellsFrom lo m = true → cellsFrom lo (eraseCell m a) = true
  | _, [], _ => rfl
  | lo, (k, v) :: m, hm => by
    simp only [cellsFrom, Bool.and_eq_true, decide_eq_true_eq] at hm
    have ih := cellsFrom_eraseCell a hm.2
    rw [eraseCell]
    split
    · exact cellsFrom_weaken (by omega) ih
    · simp only [cellsFrom, Bool.and_eq_true, decide_eq_true_eq]
      exact ⟨hm.1, ih⟩

theorem cellsFrom_insertCell {a : Nat} {v : Word} (ha : a < 65536) (hv : v ≠ 0) : ∀ {lo : Nat} {m : List MemCell},
    lo ≤ a → (∀ c ∈ m, c.1 ≠ a) → cellsFrom lo m = true → cellsFrom lo (insertCell m a v) = true
  | lo, [], hlo, _, _ => by simpa [insertCell, cellsFrom, hlo, ha] using hv
  | lo, (k, w) :: m, hlo, hne, hm => by
    simp only [cellsFrom, Bool.and_eq_true, decide_eq_true_eq] at hm
    have hk : k ≠ a := hne (k, w) (by simp)
    rw [insertCell]
    split
    · rename_i hlt
      simp only [cellsFrom, Bool.and_eq_true, decide_eq_true_eq]
      exact ⟨⟨⟨hlo, ha⟩, hv⟩, ⟨⟨⟨by omega, hm.1.1.2⟩, hm.1.2⟩, hm.2⟩⟩
    · have ih := cellsFrom_insertCell ha hv (by omega) (fun c hc => hne c (by simp [hc])) hm.2
      simp only [cellsFrom, Bool.and_eq_true, decide_eq_true_eq]
      exact ⟨hm.1, ih⟩

theorem Memory.set_wf {m : Memory} (h : m.wf = true) (a : Addr) (v : Word) : (m.set a v).wf = true := by
  unfold Memory.set Memory.wf at *
  split
  · exact cellsFrom_eraseCell _ h
  · exact cellsFrom_insertCell a.isLt (by assumption) (Nat.zero_le _) (eraseCell_ne _ _) (cellsFrom_eraseCell _ h)

/-! The two writes -/

/-- All the unforced write can do: refused with memory unchanged, or the store. -/
theorem Memory.writeUnforced_cases (m : Memory) (a : Addr) (v : Word) :
    (inProgramRegion a = true ∧ m.writeUnforced a v = (.err .protectionError, m)) ∨
      (inProgramRegion a = false ∧ m.writeUnforced a v = (.ok, m.set a v)) := by
  unfold Memory.writeUnforced
  cases h : inProgramRegion a
  · exact .inr ⟨rfl, rfl⟩
  · exact .inl ⟨rfl, rfl⟩

theorem Memory.writeUnforced_wf {m : Memory} (h : m.wf = true) (a : Addr) (v : Word) :
    (m.writeUnforced a v).2.wf = true := by
  rcases m.writeUnforced_cases a v with ⟨-, e⟩ | ⟨-, e⟩ <;> rw [e]
  · exact h
  · exact Memory.set_wf h a v

theorem Memory.writeForced_wf {m : Memory} (h : m.wf = true) (a : Addr) (v : Word) :
    (m.writeForced a v).2.wf = true :=
  Memory.set_wf h a v

theorem State.reset_wf : State.reset.wf = true := rfl

/-- What a read gives after a store instruction's access. -/
theorem State.readMem_writeMem (s : State) (a b : Addr) (v : Word) :
    (s.writeMem a v).2.readMem b = if b = a ∧ inProgramRegion a = false then v else s.readMem b := by
  unfold State.readMem
  rw [State.writeMem_mem]
  rcases s.mem.writeUnforced_cases a v with ⟨h, e⟩ | ⟨h, e⟩ <;> rw [e]
  · simp [h]
  · simp [h, Memory.read_set]

/-- What a read gives after the host's access. -/
theorem State.readMem_pokeMem (s : State) (a b : Addr) (v : Word) :
    (s.pokeMem a v).2.readMem b = if b = a then v else s.readMem b :=
  s.mem.read_set a b v

theorem State.readMem_placeFetchWord (s : State) (w : Word) (b : Addr) :
    (s.placeFetchWord w).readMem b = if b = s.pc then w else s.readMem b :=
  s.mem.read_set s.pc b w

@[simp] theorem State.readMem_reset (a : Addr) : State.reset.readMem a = 0 := rfl

/-- The load's loop keeps the canonical form. -/
theorem loadFrom_wf : ∀ (ts : List Token) (a : Nat) {m : Memory}, m.wf = true → (loadFrom ts a m).2.wf = true
  | [], _, _, h => h
  | .word v :: ts, a, m, h => by
    simp only [loadFrom]
    split
    · exact h
    · exact loadFrom_wf ts (a + 1) (Memory.set_wf h _ v)
  | .bad :: _, a, m, h => by
    simp only [loadFrom]
    split <;> exact h

end Sys2Proof.Machine
end

