-- ==== Sys2Proof/Laws/Breakpoints.lean ====
section
/-! SUPPORT. The breakpoint set: its members after each operation, and its canonical form. -/

namespace Sys2Proof.Machine

theorem mem_insertAddr (bs : List Addr) (a b : Addr) : b ∈ insertAddr bs a ↔ b = a ∨ b ∈ bs := by
  induction bs with
  | nil => simp [insertAddr]
  | cons c bs ih =>
    rw [insertAddr]
    split
    · simp
    · simp only [List.mem_cons, ih]
      tauto

theorem BreakpointSet.mem_add (bp : BreakpointSet) (a b : Addr) : b ∈ bp.add a ↔ b = a ∨ b ∈ bp := by
  unfold BreakpointSet.add
  split
  · constructor
    · exact .inr
    · rintro (rfl | h) <;> assumption
  · exact mem_insertAddr bp a b

theorem BreakpointSet.mem_remove (bp : BreakpointSet) (a b : Addr) : b ∈ bp.remove a ↔ b ∈ bp ∧ b ≠ a := by
  simp [BreakpointSet.remove]

theorem addrsFrom_weaken {lo lo' : Nat} (h : lo' ≤ lo) : ∀ {bs : List Addr}, addrsFrom lo bs = true → addrsFrom lo' bs = true
  | [], _ => rfl
  | b :: bs, hb => by
    simp only [addrsFrom, Bool.and_eq_true, decide_eq_true_eq] at hb ⊢
    exact ⟨by omega, hb.2⟩

theorem addrsFrom_insertAddr {a : Addr} : ∀ {lo : Nat} {bs : List Addr},
    lo ≤ a.toNat → a ∉ bs → addrsFrom lo bs = true → addrsFrom lo (insertAddr bs a) = true
  | lo, [], hlo, _, _ => by simp [insertAddr, addrsFrom, hlo]
  | lo, b :: bs, hlo, hne, hb => by
    simp only [addrsFrom, Bool.and_eq_true, decide_eq_true_eq] at hb
    simp only [List.mem_cons, not_or] at hne
    have hab : a.toNat ≠ b.toNat := fun e => hne.1 (BitVec.eq_of_toNat_eq e)
    rw [insertAddr]
    split
    · rename_i hlt
      simp only [addrsFrom, Bool.and_eq_true, decide_eq_true_eq]
      exact ⟨hlo, by omega, hb.2⟩
    · simp only [addrsFrom, Bool.and_eq_true, decide_eq_true_eq]
      exact ⟨hb.1, addrsFrom_insertAddr (by omega) hne.2 hb.2⟩

theorem addrsFrom_filter (p : Addr → Bool) : ∀ {lo : Nat} {bs : List Addr},
    addrsFrom lo bs = true → addrsFrom lo (bs.filter p) = true
  | _, [], _ => rfl
  | lo, b :: bs, hb => by
    simp only [addrsFrom, Bool.and_eq_true, decide_eq_true_eq] at hb
    have ih := addrsFrom_filter p hb.2
    rw [List.filter_cons]
    split
    · simp only [addrsFrom, Bool.and_eq_true, decide_eq_true_eq]
      exact ⟨hb.1, ih⟩
    · exact addrsFrom_weaken (by omega) ih

theorem BreakpointSet.add_wf {bp : BreakpointSet} (h : bp.wf = true) (a : Addr) : (bp.add a).wf = true := by
  unfold BreakpointSet.add
  split
  · exact h
  · exact addrsFrom_insertAddr (Nat.zero_le _) (by assumption) h

theorem BreakpointSet.remove_wf {bp : BreakpointSet} (h : bp.wf = true) (a : Addr) : (bp.remove a).wf = true :=
  addrsFrom_filter _ h

end Sys2Proof.Machine
end

