-- ==== Sys2Proof/Laws/Decode.lean ====
section
/-! SUPPORT. Registers and opcodes against their bits, and the fields of a packed word. -/

namespace Sys2Proof

@[simp] theorem Reg.ofBits_toBits (r : Reg) : Reg.ofBits r.toBits = r := by
  cases r <;> rfl

@[simp] theorem Reg.toBits_ofBits (b : BitVec 3) : (Reg.ofBits b).toBits = b := by
  revert b
  decide

@[simp] theorem Opcode.ofBits_toBits (o : Opcode) : Opcode.ofBits o.toBits = o := by
  cases o <;> rfl

@[simp] theorem Opcode.toBits_ofBits (b : BitVec 3) : (Opcode.ofBits b).toBits = b := by
  revert b
  decide

@[simp] theorem Reg.wellFormed_all (r : Reg) : r.wellFormed = true := by
  cases r <;> rfl

/-- The opcode of the decoded instruction is the opcode field's. -/
theorem decode_opcode (w : Word) : (decode w).opcode = Opcode.ofBits (fieldOpcode w) := by
  unfold decode
  cases Opcode.ofBits (fieldOpcode w) <;> rfl

end Sys2Proof
end

