-- ==== Sys2Proof/Laws/PerInstr.lean ====
section
/-! SUPPORT. Families of statements over every instruction, one lemma per constructor. -/

/-- The word of a well-formed instruction carries the instruction's opcode in `word[15:13]`
(30_encoding.md R51, R58). -/
def Sys2Proof.Laws.EncodedOpcode.Statement (i : Sys2Proof.Instr) : Prop :=
  i.wellFormed = true → Sys2Proof.fieldOpcode (Sys2Proof.encode i) = i.opcode.toBits

namespace Sys2Proof.Laws

theorem fieldOpcode_packRRR (op : Opcode) (a b c : Reg) : fieldOpcode (packRRR op a b c) = op.toBits := by
  cases op <;> cases a <;> cases b <;> cases c <;> rfl

theorem fieldOpcode_packRRI (op : Opcode) (a b : Reg) (i : BitVec 7) : fieldOpcode (packRRI op a b i) = op.toBits := by
  apply BitVec.eq_of_getLsbD_eq
  intro k hk
  interval_cases k <;>
    simp only [fieldOpcode, packRRI, BitVec.getLsbD_extractLsb', BitVec.getLsbD_append] <;> simp

theorem fieldOpcode_packRI (op : Opcode) (a : Reg) (i : BitVec 10) : fieldOpcode (packRI op a i) = op.toBits := by
  apply BitVec.eq_of_getLsbD_eq
  intro k hk
  interval_cases k <;>
    simp only [fieldOpcode, packRI, BitVec.getLsbD_extractLsb', BitVec.getLsbD_append] <;> simp

theorem EncodedOpcode.add (a b c : Reg) : EncodedOpcode.Statement (.add a b c) := fun _ => fieldOpcode_packRRR _ _ _ _
theorem EncodedOpcode.addi (a b : Reg) (i : BitVec 7) : EncodedOpcode.Statement (.addi a b i) :=
  fun _ => fieldOpcode_packRRI _ _ _ _
theorem EncodedOpcode.nand (a b c : Reg) : EncodedOpcode.Statement (.nand a b c) := fun _ => fieldOpcode_packRRR _ _ _ _
theorem EncodedOpcode.lui (a : Reg) (i : BitVec 10) : EncodedOpcode.Statement (.lui a i) :=
  fun _ => fieldOpcode_packRI _ _ _
theorem EncodedOpcode.sw (a b : Reg) (i : BitVec 7) : EncodedOpcode.Statement (.sw a b i) :=
  fun _ => fieldOpcode_packRRI _ _ _ _
theorem EncodedOpcode.lw (a b : Reg) (i : BitVec 7) : EncodedOpcode.Statement (.lw a b i) :=
  fun _ => fieldOpcode_packRRI _ _ _ _
theorem EncodedOpcode.beq (a b : Reg) (i : BitVec 7) : EncodedOpcode.Statement (.beq a b i) :=
  fun _ => fieldOpcode_packRRI _ _ _ _
theorem EncodedOpcode.jalr (a b : Reg) (i : BitVec 7) : EncodedOpcode.Statement (.jalr a b i) :=
  fun _ => fieldOpcode_packRRI _ _ _ _

end Sys2Proof.Laws
end

