-- ==== Sys2Proof/Laws/Step.lean ====
section
/-! SUPPORT. All that executing an instruction can do to memory, to the registers and to the breakpoint set, said once
over the eight instructions. -/

namespace Sys2Proof.Machine

/-- The register an instruction writes; register 0 for SW and BEQ, which write none (10_state.md R15). -/
def destination : Instr → Reg
  | .add rA _ _ => rA
  | .addi rA _ _ => rA
  | .nand rA _ _ => rA
  | .lui rA _ => rA
  | .sw _ _ _ => .r0
  | .lw rA _ _ => rA
  | .beq _ _ _ => .r0
  | .jalr rA _ _ => rA

/-- All BEQ can do. -/
theorem execBeq_cases (rA rB : Reg) (imm7 : BitVec 7) (s : State) :
    (s.readReg rA = s.readReg rB ∧ exec (.beq rA rB imm7) s = .next (s.writePc (s.pc + 1 + immOperand imm7))) ∨
      (s.readReg rA ≠ s.readReg rB ∧ exec (.beq rA rB imm7) s = .next s.incPc) := by
  by_cases h : s.readReg rA = s.readReg rB
  · exact .inl ⟨h, by simp only [exec, execBeq, (equalWords_iff _ _).2 h, if_true]⟩
  · refine .inr ⟨h, ?_⟩
    simp only [exec, execBeq, equalWords_iff, h, if_false]

/-- The memory after an instruction: the unforced write of an SW, unchanged otherwise. -/
theorem exec_mem_cases {i : Instr} {s t : State} (h : exec i s = .next t) :
    (∃ rA rB imm7, i = .sw rA rB imm7 ∧
      t.mem = (s.mem.writeUnforced (s.effectiveAddress rB imm7) (s.readReg rA)).2) ∨
    (i.opcode ≠ .sw ∧ t.mem = s.mem) := by
  cases i with
  | sw rA rB imm7 =>
    cases h
    exact .inl ⟨_, _, _, rfl, rfl⟩
  | beq rA rB imm7 =>
    refine .inr ⟨by simp [Instr.opcode], ?_⟩
    rcases execBeq_cases rA rB imm7 s with ⟨-, e⟩ | ⟨-, e⟩ <;> rw [e] at h <;> cases h <;> rfl
  | _ =>
    cases h
    exact .inr ⟨by simp [Instr.opcode], rfl⟩

/-- The registers after an instruction: one write of its destination, or unchanged. -/
theorem exec_regs_cases {i : Instr} {s t : State} (h : exec i s = .next t) :
    (∃ v, t.regs = s.regs.write (destination i) v) ∧
    (i.opcode = .sw ∨ i.opcode = .beq → t.regs = s.regs) := by
  cases i with
  | beq rA rB imm7 =>
    rcases execBeq_cases rA rB imm7 s with ⟨-, e⟩ | ⟨-, e⟩ <;> rw [e] at h <;> cases h <;> exact ⟨⟨0, rfl⟩, fun _ => rfl⟩
  | sw rA rB imm7 =>
    cases h
    exact ⟨⟨0, rfl⟩, fun _ => rfl⟩
  | _ =>
    cases h
    exact ⟨⟨_, rfl⟩, by simp [Instr.opcode]⟩

/-- No instruction changes the breakpoint set. -/
theorem exec_bp {i : Instr} {s t : State} (h : exec i s = .next t) : t.bp = s.bp := by
  cases i with
  | beq rA rB imm7 =>
    rcases execBeq_cases rA rB imm7 s with ⟨-, e⟩ | ⟨-, e⟩ <;> rw [e] at h <;> cases h <;> rfl
  | _ =>
    cases h
    rfl

end Sys2Proof.Machine
end

