-- ==== Sys2Proof/Tests/Slice0.lean ====
section
/-! SUPPORT. Tests on fixed values, taken from the vectors of 95_test_vectors.md (named beside each), and for every
statement with hypotheses a state that meets them. -/

namespace Sys2Proof.Tests

open Sys2Proof.Machine

/-- The state after reset with some registers, the program counter and some words of memory set. -/
def mk (regs : List (Reg × Word)) (pc : Addr) (mem : List (Addr × Word)) : State :=
  mem.foldl (fun s c => (s.pokeMem c.1 c.2).2)
    (regs.foldl (fun s c => s.writeReg c.1 c.2) { State.reset with pc := pc })

/-- The next state of an outcome. -/
def after (o : Host.Outcome State Fault Refusal) : Option State :=
  match o with
  | .next t => some t
  | .fault _ => none
  | .refused _ => none

/-- One tick of the word at 0x0010, the program counter, where most vectors put it. -/
def tick (w : Word) (regs : List (Reg × Word)) (mem : List (Addr × Word)) : Option State :=
  after (step (mk regs 0x0010 ((0x0010, w) :: mem)))

/-- The state a vector expects after `tick`: at 0x0011, the word still there. -/
def want (w : Word) (regs : List (Reg × Word)) (mem : List (Addr × Word)) : Option State :=
  some (mk regs 0x0011 ((0x0010, w) :: mem))

/-! ## Well-formedness -/

theorem test_wellFormed_refuses_window_below_data_region :
    TextWindow.wellFormed { lo := 0x1FFF, hi := 0x2000 } = false := by decide
theorem test_wellFormed_refuses_reversed_window :
    TextWindow.wellFormed { lo := 0x3001, hi := 0x3000 } = false := by decide
theorem test_wellFormed_accepts_whole_data_region :
    TextWindow.wellFormed { lo := 0x2000, hi := 0xFFFF } = true := by decide

/-- No ill-formed instruction can be written: the check refuses none (10_state.md R14, 30_encoding.md R61). -/
theorem test_every_instruction_is_wellFormed (i : Instr) : i.wellFormed = true := by
  cases i with
  | lui a i => simp only [Instr.wellFormed, Reg.wellFormed_all, Bool.true_and, decide_eq_true_eq]; exact i.isLt
  | addi a b i => simp only [Instr.wellFormed, Reg.wellFormed_all, Bool.true_and, decide_eq_true_eq]; exact i.isLt
  | sw a b i => simp only [Instr.wellFormed, Reg.wellFormed_all, Bool.true_and, decide_eq_true_eq]; exact i.isLt
  | lw a b i => simp only [Instr.wellFormed, Reg.wellFormed_all, Bool.true_and, decide_eq_true_eq]; exact i.isLt
  | beq a b i => simp only [Instr.wellFormed, Reg.wellFormed_all, Bool.true_and, decide_eq_true_eq]; exact i.isLt
  | jalr a b i => simp only [Instr.wellFormed, Reg.wellFormed_all, Bool.true_and, decide_eq_true_eq]; exact i.isLt
  | add a b c => simp [Instr.wellFormed]
  | nand a b c => simp [Instr.wellFormed]

/-! ## Decoding: words written out field by field from 30_encoding.md R50, as table E gives them -/

theorem test_decode_add : decode 0b000_001_010_0000_011 = .add .r1 .r2 .r3 := by decide
theorem test_decode_add_ignored_bits : decode 0b000_001_010_1111_011 = .add .r1 .r2 .r3 := by decide
theorem test_decode_addi : decode 0b001_001_001_1111111 = .addi .r1 .r1 127 := by decide
theorem test_decode_nand : decode 0b010_101_010_1010_101 = .nand .r5 .r2 .r5 := by decide
theorem test_decode_lui : decode 0b011_001_0010000000 = .lui .r1 0x080 := by decide
theorem test_decode_sw : decode 0b100_100_001_0000000 = .sw .r4 .r1 0 := by decide
theorem test_decode_lw : decode 0b101_010_101_0101010 = .lw .r2 .r5 42 := by decide
theorem test_decode_beq : decode 0b110_000_000_1111001 = .beq .r0 .r0 121 := by decide
theorem test_decode_jalr : decode 0b111_111_110_1111111 = .jalr .r7 .r6 127 := by decide
theorem test_encode_lw : encode (.lw .r2 .r5 42) = 0xAAAA := by decide
theorem test_decodeTableWord_masks : decodeTableWord 8 0x0503 = some (.add .r0 .r0 .r3) := by decide
theorem test_decodeTableWord_refuses_long : decodeTableWord 32 0x0503 = none := by decide

/-! ## One tick of each instruction -/

/-- V2. -/
theorem test_add_ignores_bits_6_to_3 : tick 0x057B [(.r2, 5), (.r3, 7)] [] =
    want 0x057B [(.r1, 12), (.r2, 5), (.r3, 7)] [] := by decide
/-- V10. -/
theorem test_add_at_the_last_address_wraps_pc :
    after (step (mk [(.r2, 1), (.r3, 1)] 0xFFFF [(0xFFFF, 0x0503)])) =
      some (mk [(.r1, 2), (.r2, 1), (.r3, 1)] 0 [(0xFFFF, 0x0503)]) := by decide
/-- V12. -/
theorem test_addi_adds_127 : tick 0x24FF [(.r1, 1)] [] = want 0x24FF [(.r1, 0x80)] [] := by decide
/-- V14. -/
theorem test_addi_wraps : tick 0x2501 [(.r1, 0xDEAD), (.r2, 0xFFFF)] [] = want 0x2501 [(.r2, 0xFFFF)] [] := by decide
/-- V24. -/
theorem test_nand_into_a_source : tick 0x4903 [(.r2, 0xFF00), (.r3, 0x0FF0)] [] =
    want 0x4903 [(.r2, 0xF0FF), (.r3, 0x0FF0)] [] := by decide
/-- V23. -/
theorem test_nand_into_register_0 : tick 0x4103 [(.r2, 1), (.r3, 1)] [] = want 0x4103 [(.r2, 1), (.r3, 1)] [] := by
  decide
/-- V25. -/
theorem test_lui_overwrites : tick 0x77FF [(.r5, 0x3F)] [] = want 0x77FF [(.r5, 0xFFC0)] [] := by decide
/-- V29. -/
theorem test_lui_top_bit : tick 0x6600 [] [] = want 0x6600 [(.r1, 0x8000)] [] := by decide
/-- V34. -/
theorem test_sw_to_the_last_protected_word : tick 0x88FF [(.r1, 0x1F80), (.r2, 0xAAAA)] [(0x1FFF, 0x2222)] =
    want 0x88FF [(.r1, 0x1F80), (.r2, 0xAAAA)] [(0x1FFF, 0x2222)] := by decide
/-- V35. -/
theorem test_sw_to_the_first_writable_word : tick 0x88FF [(.r1, 0x1F81), (.r2, 0xAAAA)] [] =
    want 0x88FF [(.r1, 0x1F81), (.r2, 0xAAAA)] [(0x2000, 0xAAAA)] := by decide
/-- V44. -/
theorem test_lw_address_wraps : tick 0xACFF [(.r1, 0xFFFF)] [(0x007E, 0x3333)] =
    want 0xACFF [(.r1, 0xFFFF), (.r3, 0x3333)] [(0x007E, 0x3333)] := by decide
/-- V46. -/
theorem test_lw_into_its_base : tick 0xA480 [(.r1, 0x2000)] [(0x2000, 0x9999)] =
    want 0xA480 [(.r1, 0x9999)] [(0x2000, 0x9999)] := by decide
/-- V53. -/
theorem test_beq_largest_offset : after (step (mk [(.r1, 7)] 0x20 [(0x20, 0xC4FF)])) =
    some (mk [(.r1, 7)] 0xA0 [(0x20, 0xC4FF)]) := by decide
/-- V58. -/
theorem test_beq_compares_all_bits : tick 0xC504 [(.r1, 0x8000)] [] = want 0xC504 [(.r1, 0x8000)] [] := by decide
/-- V61. -/
theorem test_jalr_with_equal_registers_falls_through : tick 0xE480 [(.r1, 0x0123)] [] =
    want 0xE480 [(.r1, 0x0011)] [] := by decide
/-- V65. -/
theorem test_jalr_link_wraps : after (step (mk [(.r1, 0x1111), (.r2, 0x3000)] 0xFFFF [(0xFFFF, 0xE500)])) =
    some (mk [(.r2, 0x3000)] 0x3000 [(0xFFFF, 0xE500)]) := by decide

/-! ## Memory primitives and the host's operations -/

/-- M1. -/
theorem test_unforced_write_refused :
    (mk [] 0 [(0x10, 0x1234)]).writeMem 0x10 0xFFFF = (.err .protectionError, mk [] 0 [(0x10, 0x1234)]) := by decide
/-- M2. -/
theorem test_forced_write_stores :
    (mk [] 0 [(0x10, 0x1234)]).pokeMem 0x10 0xFFFF = (.ok, mk [] 0 [(0x10, 0xFFFF)]) := by decide
/-- V38's store of zero: the word is no longer listed. -/
theorem test_writing_zero_unlists : (mk [] 0 [(0x3000, 0x7777)]).mem.set 0x3000 0 = [] := by decide
/-- H4. -/
theorem test_add_breakpoint_twice : (addBreakpoint 0x100 (addBreakpoint 0x100 State.reset)).bp = [0x100] := by decide
/-- H5. -/
theorem test_remove_absent_breakpoint :
    (removeBreakpoint 0x200 (addBreakpoint 0x100 State.reset)).bp = [0x100] := by decide
/-- L3. -/
theorem test_load_stops_at_bad_token : load (.tokens [.word 0x2405, .bad, .word 0x2807]) State.reset =
    (.err .rangeError, mk [] 0 [(0, 0x2405)]) := by decide
/-- H10: already cancelled, no tick. -/
theorem test_run_already_cancelled :
    runToBreakpoint [true] (addBreakpoint 5 State.reset) = .next (.cancelled, addBreakpoint 5 State.reset) := rfl
/-- H11's point: starting on a breakpoint does not stop at once. -/
theorem test_run_leaves_a_breakpoint :
    runToBreakpoint [false] { State.reset with bp := [0] } =
      .next (.stillRunning, { State.reset with pc := 1, bp := [0] }) := rfl

/-! ## The hypotheses of the statements can be met, each clause at a boundary of its range -/

theorem witness_DecodeEncodeRoundTrip : (Instr.lui .r7 1023).wellFormed = true := by decide
theorem witness_DecodeReadsEveryField :
    (0x1FFF : Word).extractLsb' 13 3 = 0 ∧ (0x2000 : Word).extractLsb' 13 3 = 1 ∧
    (0x5FFF : Word).extractLsb' 13 3 = 2 ∧ (0x6000 : Word).extractLsb' 13 3 = 3 ∧
    (0x9FFF : Word).extractLsb' 13 3 = 4 ∧ (0xA000 : Word).extractLsb' 13 3 = 5 ∧
    (0xDFFF : Word).extractLsb' 13 3 = 6 ∧ (0xFFFF : Word).extractLsb' 13 3 = 7 := by decide
theorem witness_IgnoredBitsHaveNoEffect_add :
    fieldOpcode 0x0503 = 0 ∧ (0x0503 : Word) &&& 0xFF87 = 0x057B &&& 0xFF87 := by decide
theorem witness_IgnoredBitsHaveNoEffect_nand :
    fieldOpcode 0x4503 = 2 ∧ (0x4503 : Word) &&& 0xFF87 = 0x457B &&& 0xFF87 := by decide
theorem witness_IgnoredBitsHaveNoEffect_jalr :
    fieldOpcode 0xFF00 = 7 ∧ (0xFF00 : Word) &&& 0xFF80 = 0xFF7F &&& 0xFF80 := by decide
theorem witness_RegisterWriteRule : Reg.r1 ≠ .r0 ∧ Reg.r7 ≠ .r0 := by decide
theorem witness_UnforcedWriteIsProtected_program :
    (0x0000 : Addr).toNat ≤ 0x1FFF ∧ (0x1FFF : Addr).toNat ≤ 0x1FFF := by decide
theorem witness_UnforcedWriteIsProtected_data :
    0x2000 ≤ (0x2000 : Addr).toNat ∧ 0x2000 ≤ (0xFFFF : Addr).toNat := by decide
theorem witness_ForcedWriteAlwaysStores :
    exec (.sw .r2 .r1 127) (mk [(.r1, 0x1F81), (.r2, 3)] 0 []) =
      .next (mk [(.r1, 0x1F81), (.r2, 3)] 1 [(0x2000, 3)]) ∧ (0x1FFF : Addr).toNat ≤ 0x1FFF :=
  ⟨rfl, by decide⟩
theorem witness_CanonicalFormsAreUnique :
    Memory.wf [(0, 1), (0xFFFF, 2)] = true ∧ (∀ a, Memory.read [(0, 1), (0xFFFF, 2)] a = Memory.read [(0, 1), (0xFFFF, 2)] a) ∧
    BreakpointSet.wf [0, 0xFFFF] = true ∧ (∀ a : Addr, a ∈ ([0, 0xFFFF] : List Addr) ↔ a ∈ ([0, 0xFFFF] : List Addr)) :=
  ⟨rfl, fun _ => rfl, rfl, fun _ => Iff.rfl⟩
theorem witness_TextWindowIsOrdinaryMemory :
    TextWindow.wellFormed { lo := 0x2000, hi := 0xFFFF } = true ∧
    (0x2000 : Addr).toNat ≤ (0x2000 : Addr).toNat ∧ (0x2000 : Addr).toNat ≤ (0xFFFF : Addr).toNat := by decide
theorem witness_ParameterAlternatives : (63 : BitVec 7).toNat < 64 ∧ 64 ≤ (64 : BitVec 7).toNat := by decide
theorem witness_NandResultAndFrame : (Reg.r1 ≠ .r0 ∧ 15 < 16) ∧ (Reg.r2 ≠ .r1 ∨ Reg.r1 = .r0) ∧
    (Reg.r0 ≠ .r0 ∨ Reg.r0 = .r0) := by decide
theorem witness_SwResultAndFrame_data :
    0x2000 ≤ ((mk [(.r1, 0x1F81)] 0 []).effectiveAddress .r1 127).toNat ∧
    (0x1FFF : Addr) ≠ (mk [(.r1, 0x1F81)] 0 []).effectiveAddress .r1 127 := by decide
theorem witness_SwResultAndFrame_program :
    ((mk [(.r1, 0x1F80)] 0 []).effectiveAddress .r1 127).toNat ≤ 0x1FFF ∧
    (0x2000 : Addr) ≠ (mk [(.r1, 0x1F80)] 0 []).effectiveAddress .r1 127 := by decide
theorem witness_BeqResultAndFrame_taken : (mk [(.r1, 7), (.r2, 7)] 0 []).readReg .r1 = (mk [(.r1, 7), (.r2, 7)] 0 []).readReg .r2 := by
  decide
theorem witness_BeqResultAndFrame_not_taken : (mk [(.r1, 0x8000)] 0 []).readReg .r1 ≠ (mk [(.r1, 0x8000)] 0 []).readReg .r0 := by
  decide
theorem witness_LuiThenAddiBuildsAnyConstant : Reg.r7 ≠ .r0 := by decide
theorem witness_LoadAfterStore : Reg.r3 ≠ .r0 ∧
    0x2000 ≤ ((mk [(.r1, 0x2000)] 0 []).effectiveAddress .r1 0).toNat ∧
    ¬ 0x2000 ≤ ((mk [(.r1, 0x1FFF)] 0 []).effectiveAddress .r1 0).toNat := by decide
theorem witness_StepRunsTheDecodedInstruction :
    decode ((mk [] 0x10 [(0x10, 0x0503)]).readMem 0x10) = .add .r1 .r2 .r3 ∧
    (Instr.add .r1 .r2 .r3).wellFormed = true := by decide
theorem witness_PlacedWordRunsNext : 65535 < 65536 ∧ (1 : Addr) ≠ (mk [] 0 []).pc := by decide
theorem witness_TickDependsOnRegistersPcMemory :
    (∀ r, State.reset.readReg r = (addBreakpoint 5 State.reset).readReg r) ∧
    State.reset.pc = (addBreakpoint 5 State.reset).pc ∧
    (∀ a, State.reset.readMem a = (addBreakpoint 5 State.reset).readMem a) ∧
    step State.reset = .next { State.reset with pc := 1 } :=
  ⟨fun _ => rfl, rfl, fun _ => rfl, rfl⟩
theorem witness_OnlyStoreChangesMemory :
    step (mk [(.r1, 0x2000), (.r2, 9)] 0 [(0, 0x8880)]) = .next (mk [(.r1, 0x2000), (.r2, 9)] 1 [(0, 0x8880), (0x2000, 9)]) ∧
    (mk [(.r1, 0x2000), (.r2, 9)] 1 [(0, 0x8880), (0x2000, 9)]).readMem 0x2000 ≠
      (mk [(.r1, 0x2000), (.r2, 9)] 0 [(0, 0x8880)]).readMem 0x2000 :=
  ⟨rfl, by decide⟩
theorem witness_OnlyTheNamedRegisterChanges :
    step (mk [] 0 [(0, 0x2405)]) = .next (mk [(.r1, 5)] 1 [(0, 0x2405)]) ∧
    (mk [(.r1, 5)] 1 [(0, 0x2405)]).readReg .r1 ≠ (mk [] 0 [(0, 0x2405)]).readReg .r1 :=
  ⟨rfl, by decide⟩
theorem witness_OnlyJalrJumpsAnywhere :
    step (mk [] 0x20 [(0x20, 0xC07F)]) = .next (mk [] 0xA0 [(0x20, 0xC07F)]) ∧
    (decode ((mk [] 0x20 [(0x20, 0xC07F)]).readMem 0x20)).opcode ≠ .jalr :=
  ⟨rfl, by decide⟩
theorem witness_StepKeepsCanonicalForm :
    (mk [(.r1, 0x2000)] 0 [(0, 0x8080), (0x2000, 9)]).wf = true ∧
    step (mk [(.r1, 0x2000)] 0 [(0, 0x8080), (0x2000, 9)]) = .next (mk [(.r1, 0x2000)] 1 [(0, 0x8080)]) :=
  ⟨by decide, rfl⟩
theorem witness_StoredWordIsFetchedNext :
    decode ((mk [(.r1, 0x2001), (.r2, 0x2405)] 0x2000 [(0x2000, 0x8880)]).readMem 0x2000) = .sw .r2 .r1 0 ∧
    (mk [(.r1, 0x2001), (.r2, 0x2405)] 0x2000 [(0x2000, 0x8880)]).effectiveAddress .r1 0 = 0x2000 + 1 ∧
    0x2000 ≤ ((0x2000 : Addr) + 1).toNat := by decide
theorem witness_ZeroedMemoryRunsAsNoOperations : ∀ a, (mk [(.r1, 9)] 0xFFFF []).readMem a = 0 := fun _ => rfl
theorem witness_UnlinkedSelfJumpSpins :
    decode ((mk [(.r3, 0x44)] 0x44 [(0x44, 0xE180)]).readMem 0x44) = .jalr .r0 .r3 0 ∧
    (mk [(.r3, 0x44)] 0x44 [(0x44, 0xE180)]).readReg .r3 = 0x44 := by decide
theorem witness_PokeStoresAnywhere : (0x1FFF : Addr) = (mk [] 0x1FFF []).pc := by decide
theorem witness_StepCountsAdd : stepN 1 (mk [] 0 [(0, 0x2405)]) = .next (mk [(.r1, 5)] 1 [(0, 0x2405)]) := rfl
theorem witness_BreakpointsAreInvisibleToTicks : stepN 2 State.reset = .next { State.reset with pc := 2 } := rfl
theorem witness_AddBreakpointAddsOneMember :
    (5 : Addr) ∈ (addBreakpoint 5 State.reset).bp ∧ (addBreakpoint 5 State.reset).bp.Nodup := by decide
theorem witness_RemoveBreakpointRemovesOnlyIt : (6 : Addr) ∉ (addBreakpoint 5 State.reset).bp := by decide

/-- Zeroed memory, a breakpoint at 2, two ticks: the first arrives at 1, the second at the breakpoint. -/
theorem witness_RunStopsAtTheFirstBreakpoint :
    stepN (1 + 1) { State.reset with bp := [2] } = .next { State.reset with pc := 2, bp := [2] } ∧
    (2 : Addr) ∈ ([2] : List Addr) ∧
    ∀ (j : Nat) (u : State), 1 ≤ j → j ≤ 1 → stepN j { State.reset with bp := [2] } = .next u →
      u.pc ∉ ([2] : List Addr) := by
  refine ⟨rfl, by decide, ?_⟩
  intro j u h1 h2 h
  obtain rfl : j = 1 := by omega
  obtain rfl : u = { State.reset with pc := 1, bp := [2] } := by injection h with h; exact h.symm
  decide

/-- Zeroed memory, a breakpoint at 2, one tick, then a cancellation. -/
theorem witness_RunEndsOnCancellationBetweenTicks :
    stepN 1 { State.reset with bp := [2] } = .next { State.reset with pc := 1, bp := [2] } ∧
    ∀ (j : Nat) (u : State), 1 ≤ j → j ≤ 1 → stepN j { State.reset with bp := [2] } = .next u →
      u.pc ∉ ([2] : List Addr) :=
  ⟨rfl, witness_RunStopsAtTheFirstBreakpoint.2.2⟩

theorem witness_ProgramRegionChangesOnlyByPoke :
    (∀ op ∈ [HostOp.poke 0x2000 1, .step 1], op.pokesProgramRegion = false) ∧
    session [.poke 0x2000 1, .step 1] State.reset = .next (mk [] 1 [(0x2000, 1)]) ∧
    inProgramRegion 0x1FFF = true :=
  ⟨by decide, rfl, by decide⟩
theorem witness_SessionsKeepCanonicalForm : (mk [] 0 [(0x2000, 1)]).wf = true := by decide
theorem witness_LoadFillsTheProgramRegion : (List.replicate 8192 (1 : Word)).length = 8192 := List.length_replicate
theorem witness_FailedLoadKeepsWhatWasLoaded : (List.replicate 0x1FFF (1 : Word)).length ≤ 0x1FFF :=
  le_of_eq List.length_replicate
/-- A reset together with an unforced write at the last word of the program region. -/
theorem witness_MemoryPortsResetZeroesEveryWord :
    (MemoryIn.mk 0x1FFF 1 true false true).reset = true ∧ (MemoryIn.mk 0x1FFF 1 true false true).we = true ∧
    (MemoryIn.mk 0x1FFF 1 true false true).forced = false ∧
    (MemoryIn.mk 0x1FFF 1 true false true).addr.toNat ≤ 0x1FFF := by decide
theorem witness_RegFilePortsRefineTheOperations :
    (RegFileIn.mk 0 0 7 1 true 0 false true true).reset = true ∧
    (RegFileIn.mk 0 0 7 1 true 0 false true false).reset = false := by decide

end Sys2Proof.Tests
end

section
/-! The register file: the statements of 10_state.md. -/

namespace Sys2Proof.Machine

/-- Settles O6: register 0 has no storage and reads 0 (R12); for each other register the read is its field of the
register file, by definition. -/
theorem registerReadRule : Obligations.RegisterReadRule := by
  intro s
  exact ⟨s.readReg_r0, rfl, rfl, rfl, rfl, rfl, rfl, rfl⟩

end Sys2Proof.Machine
end

section
/-! Protected memory: the statements of 20_memory.md. -/

namespace Sys2Proof.Machine

/-- In the program region the unforced write is refused and the state is untouched (20_memory.md R33). -/
theorem State.writeMem_of_programRegion (s : State) {a : Addr} (h : inProgramRegion a = true) (v : Word) :
    s.writeMem a v = (.err .protectionError, s) := by
  rcases s.mem.writeUnforced_cases a v with ⟨-, e⟩ | ⟨hout, -⟩
  · simp only [State.writeMem, e]
  · simp [h] at hout

/-- Outside the program region the unforced write succeeds (20_memory.md R33). -/
theorem State.writeMem_ok (s : State) {a : Addr} (h : inProgramRegion a = false) (v : Word) :
    (s.writeMem a v).1 = .ok := by
  rcases s.mem.writeUnforced_cases a v with ⟨hin, -⟩ | ⟨-, e⟩
  · simp [h] at hin
  · rw [State.writeMem_result, e]

/-- No instruction changes the program region: the one that writes memory, SW, writes unforced (20_memory.md R33, R34). -/
theorem exec_sameProgramRegion {i : Instr} {s t : State} (h : exec i s = .next t) : SameProgramRegion s t := by
  intro b hb
  rcases exec_mem_cases h with ⟨rA, rB, imm7, -, hmem⟩ | ⟨-, hmem⟩
  · have hread : t.readMem b = (s.writeMem (s.effectiveAddress rB imm7) (s.readReg rA)).2.readMem b :=
      congrArg (Memory.read · b) hmem
    rw [hread, State.readMem_writeMem, if_neg]
    rintro ⟨rfl, hout⟩
    simp [hb] at hout
  · exact congrArg (Memory.read · b) hmem

/-- Settles O9: the two regions are the two cases of the unforced write. -/
theorem unforcedWriteIsProtected : Obligations.UnforcedWriteIsProtected := by
  intro s a v
  constructor
  · intro hprogram
    exact s.writeMem_of_programRegion ((inProgramRegion_iff a).2 hprogram) v
  · intro hdata
    have hout : inProgramRegion a = false := by
      rw [Bool.eq_false_iff, Ne, inProgramRegion_iff]
      omega
    refine ⟨(s.writeMem a v).2, Prod.ext (s.writeMem_ok hout v) rfl, fun b => ?_, rfl, rfl, rfl⟩
    simp [State.readMem_writeMem, hout]

/-- Settles O10: the host's write stores whatever the region, and by `exec_sameProgramRegion` no instruction does so in
the program region. -/
theorem forcedWriteAlwaysStores : Obligations.ForcedWriteAlwaysStores := by
  intro s
  constructor
  · intro a v
    exact ⟨(s.pokeMem a v).2, rfl, fun b => s.readMem_pokeMem a b v, rfl, rfl, rfl⟩
  · intro i t h b hb
    exact exec_sameProgramRegion h b ((inProgramRegion_iff b).2 hb)

end Sys2Proof.Machine
end

section
/-! The tick: the statements of 40_sequencer_tick.md. -/

namespace Sys2Proof.Machine

/-- The tick is fetch, decode, execute (40_sequencer_tick.md R70). -/
theorem step_eq_exec_decode (s : State) : step s = exec (decode (s.readMem s.pc)) s := rfl

/-- Settles O25: the tick is `exec` of what the fetched word decodes to, in the same state. -/
theorem stepRunsTheDecodedInstruction : Obligations.StepRunsTheDecodedInstruction := by
  intro s i hdecode _
  rw [step_eq_exec_decode, hdecode]

/-- The two states show an instruction the same registers, program counter and memory; their breakpoint sets are free,
and so is the way their memories are listed (40_sequencer_tick.md R74). -/
structure State.Agrees (s s' : State) : Prop where
  regs : ∀ r, s.readReg r = s'.readReg r
  pc : s.pc = s'.pc
  mem : ∀ a, s.readMem a = s'.readMem a

/-! Every operation an instruction is built from keeps the agreement. -/

theorem State.Agrees.effectiveAddress {s s' : State} (h : s.Agrees s') (rB : Reg) (imm7 : BitVec 7) :
    s.effectiveAddress rB imm7 = s'.effectiveAddress rB imm7 :=
  congrArg (· + immOperand imm7) (h.regs rB)

theorem State.Agrees.writeReg {s s' : State} (h : s.Agrees s') (r : Reg) (v : Word) :
    (s.writeReg r v).Agrees (s'.writeReg r v) where
  regs q := by simp only [State.readReg_writeReg, h.regs q]
  pc := h.pc
  mem := h.mem

theorem State.Agrees.writePc {s s' : State} (h : s.Agrees s') (target : Addr) :
    (s.writePc target).Agrees (s'.writePc target) where
  regs := h.regs
  pc := rfl
  mem := h.mem

theorem State.Agrees.incPc {s s' : State} (h : s.Agrees s') : s.incPc.Agrees s'.incPc where
  regs := h.regs
  pc := congrArg (· + 1) h.pc
  mem := h.mem

theorem State.Agrees.retire {s s' : State} (h : s.Agrees s') (r : Reg) (v : Word) :
    (s.retire r v).Agrees (s'.retire r v) :=
  (h.writeReg r v).incPc

theorem State.Agrees.writeMem {s s' : State} (h : s.Agrees s') (a : Addr) (v : Word) :
    (s.writeMem a v).2.Agrees (s'.writeMem a v).2 where
  regs := h.regs
  pc := h.pc
  mem b := by simp only [State.readMem_writeMem, h.mem b]

/-- Executed in two states that agree, an instruction completes in both and the next states agree: every operand it
reads is the same in both, and it applies the same writes. -/
theorem exec_agrees {s s' : State} (h : s.Agrees s') (i : Instr) :
    ∃ t t', exec i s = .next t ∧ exec i s' = .next t' ∧ t.Agrees t' := by
  cases i with
  | add rA rB rC =>
    refine ⟨_, _, rfl, rfl, ?_⟩
    rw [h.regs rB, h.regs rC]
    exact h.retire _ _
  | addi rA rB imm7 =>
    refine ⟨_, _, rfl, rfl, ?_⟩
    rw [h.regs rB]
    exact h.retire _ _
  | nand rA rB rC =>
    refine ⟨_, _, rfl, rfl, ?_⟩
    rw [h.regs rB, h.regs rC]
    exact h.retire _ _
  | lui rA imm10 =>
    refine ⟨_, _, rfl, rfl, ?_⟩
    rw [h.regs rA]
    exact h.retire _ _
  | sw rA rB imm7 =>
    refine ⟨_, _, rfl, rfl, ?_⟩
    rw [h.effectiveAddress, h.regs rA]
    exact (h.writeMem _ _).incPc
  | lw rA rB imm7 =>
    refine ⟨_, _, rfl, rfl, ?_⟩
    rw [h.effectiveAddress, h.mem]
    exact h.retire _ _
  | beq rA rB imm7 =>
    rcases execBeq_cases rA rB imm7 s with ⟨heq, e⟩ | ⟨hne, e⟩ <;>
      rcases execBeq_cases rA rB imm7 s' with ⟨heq', e'⟩ | ⟨hne', e'⟩
    case inl.inl =>
      refine ⟨_, _, e, e', ?_⟩
      rw [h.pc]
      exact h.writePc _
    case inl.inr => exact absurd (by rwa [h.regs, h.regs rB] at heq) hne'
    case inr.inl => exact absurd (by rwa [h.regs, h.regs rB]) hne
    case inr.inr => exact ⟨_, _, e, e', h.incPc⟩
  | jalr rA rB imm7 =>
    refine ⟨_, _, rfl, rfl, ?_⟩
    have hlinked : (s.writeReg rA (s.pc + 1)).Agrees (s'.writeReg rA (s'.pc + 1)) := by
      rw [h.pc]
      exact h.writeReg _ _
    rw [hlinked.regs rB]
    exact hlinked.writePc _

/-- A tick keeps the agreement: both states fetch the same word. -/
theorem step_agrees {s s' : State} (h : s.Agrees s') :
    ∃ t t', step s = .next t ∧ step s' = .next t' ∧ t.Agrees t' := by
  rw [step_eq_exec_decode, step_eq_exec_decode, h.mem, h.pc]
  exact exec_agrees h _

/-- Settles O29: `step_agrees` on what the tick reads, `exec_bp` on what it leaves alone. -/
theorem tickDependsOnRegistersPcMemory : Obligations.TickDependsOnRegistersPcMemory := by
  intro s s' t hregs hpc hmem ht
  obtain ⟨u, t', hu, ht', hagree⟩ := step_agrees ⟨hregs, hpc, hmem⟩
  obtain rfl : u = t := by
    rw [hu] at ht
    cases ht
    rfl
  exact ⟨t', ht', hagree.regs, hagree.pc, hagree.mem, exec_bp ht, exec_bp ht'⟩

end Sys2Proof.Machine
end

section
/-! The host's operations: the statements of 60_exceptions.md. -/

namespace Sys2Proof.Machine

/-! What each operation answers. -/

@[simp] theorem hostOp_poke (a : Addr) (v : Word) (s : State) :
    hostOp (.poke a v) s = .next (.ok, (s.pokeMem a v).2) := rfl
@[simp] theorem hostOp_addBreakpoint (a : Addr) (s : State) :
    hostOp (.addBreakpoint a) s = .next (.ok, addBreakpoint a s) := rfl
@[simp] theorem hostOp_removeBreakpoint (a : Addr) (s : State) :
    hostOp (.removeBreakpoint a) s = .next (.ok, removeBreakpoint a s) := rfl

/-! The breakpoint set after an operation that is a no-op, and its members counted. -/

theorem BreakpointSet.add_of_mem {bp : BreakpointSet} {a : Addr} (h : a ∈ bp) : bp.add a = bp := if_pos h

theorem BreakpointSet.remove_of_notMem {bp : BreakpointSet} {a : Addr} (h : a ∉ bp) : bp.remove a = bp := by
  refine List.filter_eq_self.2 fun b hb => decide_eq_true ?_
  rintro rfl
  exact h hb

/-- Where the new member is put does not matter to which members there are, nor to how often each is listed. -/
theorem insertAddr_perm (bs : List Addr) (a : Addr) : (insertAddr bs a).Perm (a :: bs) := by
  induction bs with
  | nil => exact .refl _
  | cons b bs ih =>
    rw [insertAddr]
    split
    · exact .refl _
    · exact (ih.cons b).trans (.swap a b bs)

theorem BreakpointSet.add_nodup {bp : BreakpointSet} (h : bp.Nodup) (a : Addr) : (bp.add a).Nodup := by
  unfold BreakpointSet.add
  split
  · exact h
  next habsent => exact (insertAddr_perm bp a).nodup_iff.2 (List.nodup_cons.2 ⟨habsent, h⟩)

theorem addBreakpoint_of_mem {a : Addr} {s : State} (h : a ∈ s.bp) : addBreakpoint a s = s :=
  congrArg (fun bp => { s with bp := bp }) (BreakpointSet.add_of_mem h)

theorem removeBreakpoint_of_notMem {a : Addr} {s : State} (h : a ∉ s.bp) : removeBreakpoint a s = s :=
  congrArg (fun bp => { s with bp := bp }) (BreakpointSet.remove_of_notMem h)

/-- Settles O41: the read after the forced write says both what is stored and, at the program counter, what the next
tick fetches. -/
theorem pokeStoresAnywhere : Obligations.PokeStoresAnywhere := by
  intro s a v
  refine ⟨(s.pokeMem a v).2, hostOp_poke a v s, fun b => s.readMem_pokeMem a b v, fun _ => rfl, rfl, rfl, ?_⟩
  rintro rfl
  have hfetch : (s.pokeMem s.pc v).2.readMem s.pc = v := by rw [State.readMem_pokeMem, if_pos rfl]
  rw [step_eq_exec_decode, State.pokeMem_pc, hfetch]

/-- Settles O46: after the first addition the address is a member, so that a second one is the no-op on a member. -/
theorem addBreakpointAddsOneMember : Obligations.AddBreakpointAddsOneMember := by
  intro s a
  have hmember : a ∈ (addBreakpoint a s).bp := (s.bp.mem_add a a).2 (.inl rfl)
  have hagain : hostOp (.addBreakpoint a) (addBreakpoint a s) = .next (.ok, addBreakpoint a s) := by
    rw [hostOp_addBreakpoint, addBreakpoint_of_mem hmember]
  exact ⟨addBreakpoint a s, hostOp_addBreakpoint a s, s.bp.mem_add a, addBreakpoint_of_mem,
    (BreakpointSet.add_nodup · a), hagain, fun _ => rfl, rfl, fun _ => rfl⟩

/-- Settles O47: the members are those of `remove`, which leaves a set without the address as it is. -/
theorem removeBreakpointRemovesOnlyIt : Obligations.RemoveBreakpointRemovesOnlyIt := by
  intro s a
  exact ⟨removeBreakpoint a s, hostOp_removeBreakpoint a s, s.bp.mem_remove a, removeBreakpoint_of_notMem,
    fun _ => rfl, rfl, fun _ => rfl⟩

end Sys2Proof.Machine
end

section
/-! Loading the program: the statements of 70_reset_and_hazards.md. -/

namespace Sys2Proof.Machine

/-! What the loop does with the next token, below the capacity (70_reset_and_hazards.md R144). -/

theorem loadFrom_word {a : Nat} (ha : a ≤ 0x1FFF) (v : Word) (ts : List Token) (m : Memory) :
    loadFrom (.word v :: ts) a m = loadFrom ts (a + 1) (m.set (BitVec.ofNat 16 a) v) :=
  if_neg (Nat.not_lt.2 ha)

theorem loadFrom_bad {a : Nat} (ha : a ≤ 0x1FFF) (ts : List Token) (m : Memory) :
    loadFrom (.bad :: ts) a m = (.err .rangeError, m) :=
  if_neg (Nat.not_lt.2 ha)

/-- Words that fit are stored one per address from `a` on, and the loop goes on with the tokens after them; which those
are does not matter to what has been stored (70_reset_and_hazards.md R144, R145). -/
theorem loadFrom_words (ts : List Token) (ws : List Word) {a : Nat} (m : Memory) (hfit : a + ws.length ≤ 0x2000) :
    ∃ m', loadFrom (ws.map .word ++ ts) a m = loadFrom ts (a + ws.length) m' ∧
      ∀ b : Addr, m'.read b =
        if a ≤ b.toNat ∧ b.toNat < a + ws.length then ws.getD (b.toNat - a) 0 else m.read b := by
  induction ws generalizing a m with
  | nil => exact ⟨m, rfl, fun b => (if_neg (by simp)).symm⟩
  | cons v ws ih =>
    rw [List.length_cons] at hfit ⊢
    obtain ⟨m', hload, hread⟩ := ih (m.set (BitVec.ofNat 16 a) v) (a := a + 1) (by omega)
    refine ⟨m', ?_, fun b => ?_⟩
    · rw [List.map_cons, List.cons_append, loadFrom_word (by omega), hload, Nat.add_right_comm, Nat.add_assoc]
    · have hfirst : b = BitVec.ofNat 16 a ↔ b.toNat = a := by bv_omega
      simp only [hread, Memory.read_set, hfirst]
      rcases Nat.lt_trichotomy b.toNat a with hlt | heq | hgt
      · rw [if_neg (by omega), if_neg (by omega), if_neg (by omega)]
      · rw [if_neg (by omega), if_pos heq, if_pos (by omega), heq, Nat.sub_self, List.getD_cons_zero]
      · have hindex : b.toNat - a = b.toNat - (a + 1) + 1 := by omega
        rw [if_neg (show b.toNat ≠ a by omega), hindex, List.getD_cons_succ]
        exact if_congr (by omega) rfl rfl

/-- Every tick completes (40_sequencer_tick.md R72): a state agrees with itself. -/
theorem step_completes (s : State) : Completes (step s) := by
  obtain ⟨t, -, ht, -, -⟩ := step_agrees (s := s) (s' := s) ⟨fun _ => rfl, rfl, fun _ => rfl⟩
  exact ⟨t, ht⟩

/-- Settles O55: an unopenable source leaves the reset state; otherwise `loadFrom_words` stores the words into the
zeroed memory, and the loop stops at the bad token, which stands below the capacity. -/
theorem failedLoadKeepsWhatWasLoaded : Obligations.FailedLoadKeepsWhatWasLoaded := by
  intro s
  constructor
  · exact ⟨State.reset, rfl, State.readMem_reset, step_completes _⟩
  · intro ws rest hfit
    obtain ⟨m, hload, hread⟩ := loadFrom_words (.bad :: rest) ws (a := 0) State.reset.mem (by omega)
    rw [loadFrom_bad (by omega)] at hload
    refine ⟨{ State.reset with mem := m }, ?_, fun a => ?_, step_completes _⟩
    · simp only [boot, sessionReset, load, hload]
    · have hzero : State.reset.mem.read a = 0 := State.readMem_reset a
      have hloaded := hread a
      simp only [hzero, Nat.zero_le, true_and, Nat.zero_add, Nat.sub_zero] at hloaded
      exact hloaded

end Sys2Proof.Machine
end

section
/-! The encoding: the statements of 30_encoding.md. -/

namespace Sys2Proof

/-! Each field of a word is a quotient and a remainder of its value (95_test_vectors.md, table E). -/

theorem fieldOpcode_toNat (w : Word) : (fieldOpcode w).toNat = w.toNat / 2 ^ 13 := by
  rw [fieldOpcode, BitVec.extractLsb'_toNat, Nat.shiftRight_eq_div_pow]
  omega

theorem fieldA_toNat (w : Word) : (fieldA w).toNat = w.toNat / 2 ^ 10 % 8 := by
  rw [fieldA, BitVec.extractLsb'_toNat, Nat.shiftRight_eq_div_pow]

theorem fieldB_toNat (w : Word) : (fieldB w).toNat = w.toNat / 2 ^ 7 % 8 := by
  rw [fieldB, BitVec.extractLsb'_toNat, Nat.shiftRight_eq_div_pow]

theorem fieldC_toNat (w : Word) : (fieldC w).toNat = w.toNat % 8 := BitVec.extractLsb'_toNat 0 3 w

theorem fieldImm7_toNat (w : Word) : (fieldImm7 w).toNat = w.toNat % 128 := BitVec.extractLsb'_toNat 0 7 w

theorem fieldImm10_toNat (w : Word) : (fieldImm10 w).toNat = w.toNat % 1024 := BitVec.extractLsb'_toNat 0 10 w

/-- Settles O56: each port is a field, and each field a quotient and a remainder. -/
theorem decoderPortsAreShiftsAndMasks : Obligations.DecoderPortsAreShiftsAndMasks := by
  intro w
  exact ⟨fieldOpcode_toNat w, fieldA_toNat w, fieldB_toNat w, fieldC_toNat w, fieldImm7_toNat w, fieldImm10_toNat w,
    rfl⟩

/-! The value of a packed word, from the values of its fields (30_encoding.md R50). -/

theorem toNat_append_eq_add {m n : Nat} (x : BitVec m) (y : BitVec n) :
    (x ++ y).toNat = x.toNat * 2 ^ n + y.toNat := by
  rw [BitVec.toNat_append, ← Nat.shiftLeft_add_eq_or_of_lt y.isLt, Nat.shiftLeft_eq]

theorem packRRR_toNat (op : Opcode) (a b c : Reg) :
    (packRRR op a b c).toNat =
      ((op.toBits.toNat * 8 + a.toBits.toNat) * 8 + b.toBits.toNat) * 128 + c.toBits.toNat := by
  simp only [packRRR, toNat_append_eq_add, BitVec.toNat_zero]
  omega

theorem packRRI_toNat (op : Opcode) (a b : Reg) (i : BitVec 7) :
    (packRRI op a b i).toNat = ((op.toBits.toNat * 8 + a.toBits.toNat) * 8 + b.toBits.toNat) * 128 + i.toNat := by
  simp only [packRRI, toNat_append_eq_add, Nat.reducePow]

theorem packRI_toNat (op : Opcode) (a : Reg) (i : BitVec 10) :
    (packRI op a i).toNat = (op.toBits.toNat * 8 + a.toBits.toNat) * 1024 + i.toNat := by
  simp only [packRI, toNat_append_eq_add, Nat.reducePow]

/-! The fields of a packed word are those it was packed from; for the opcode field, see `Laws.fieldOpcode_packRRR` and
its companions. -/

@[simp] theorem fieldA_packRRR (op : Opcode) (a b c : Reg) : fieldA (packRRR op a b c) = a.toBits := by
  apply BitVec.eq_of_toNat_eq
  rw [fieldA_toNat, packRRR_toNat]
  omega

@[simp] theorem fieldB_packRRR (op : Opcode) (a b c : Reg) : fieldB (packRRR op a b c) = b.toBits := by
  apply BitVec.eq_of_toNat_eq
  rw [fieldB_toNat, packRRR_toNat]
  omega

@[simp] theorem fieldC_packRRR (op : Opcode) (a b c : Reg) : fieldC (packRRR op a b c) = c.toBits := by
  apply BitVec.eq_of_toNat_eq
  rw [fieldC_toNat, packRRR_toNat]
  omega

@[simp] theorem fieldA_packRRI (op : Opcode) (a b : Reg) (i : BitVec 7) :
    fieldA (packRRI op a b i) = a.toBits := by
  apply BitVec.eq_of_toNat_eq
  rw [fieldA_toNat, packRRI_toNat]
  omega

@[simp] theorem fieldB_packRRI (op : Opcode) (a b : Reg) (i : BitVec 7) :
    fieldB (packRRI op a b i) = b.toBits := by
  apply BitVec.eq_of_toNat_eq
  rw [fieldB_toNat, packRRI_toNat]
  omega

@[simp] theorem fieldImm7_packRRI (op : Opcode) (a b : Reg) (i : BitVec 7) : fieldImm7 (packRRI op a b i) = i := by
  apply BitVec.eq_of_toNat_eq
  rw [fieldImm7_toNat, packRRI_toNat]
  omega

@[simp] theorem fieldA_packRI (op : Opcode) (a : Reg) (i : BitVec 10) : fieldA (packRI op a i) = a.toBits := by
  apply BitVec.eq_of_toNat_eq
  rw [fieldA_toNat, packRI_toNat]
  omega

@[simp] theorem fieldImm10_packRI (op : Opcode) (a : Reg) (i : BitVec 10) : fieldImm10 (packRI op a i) = i := by
  apply BitVec.eq_of_toNat_eq
  rw [fieldImm10_toNat, packRI_toNat]
  omega

/-! Decoding, once the opcode is known. -/

/-- The instruction with opcode `o` whose fields are those of `w` (30_encoding.md R59). -/
def instrOf (o : Opcode) (w : Word) : Instr :=
  match o with
  | .add => .add (Reg.ofBits (fieldA w)) (Reg.ofBits (fieldB w)) (Reg.ofBits (fieldC w))
  | .addi => .addi (Reg.ofBits (fieldA w)) (Reg.ofBits (fieldB w)) (fieldImm7 w)
  | .nand => .nand (Reg.ofBits (fieldA w)) (Reg.ofBits (fieldB w)) (Reg.ofBits (fieldC w))
  | .lui => .lui (Reg.ofBits (fieldA w)) (fieldImm10 w)
  | .sw => .sw (Reg.ofBits (fieldA w)) (Reg.ofBits (fieldB w)) (fieldImm7 w)
  | .lw => .lw (Reg.ofBits (fieldA w)) (Reg.ofBits (fieldB w)) (fieldImm7 w)
  | .beq => .beq (Reg.ofBits (fieldA w)) (Reg.ofBits (fieldB w)) (fieldImm7 w)
  | .jalr => .jalr (Reg.ofBits (fieldA w)) (Reg.ofBits (fieldB w)) (fieldImm7 w)

theorem decode_of_opcode {w : Word} {o : Opcode} (h : Opcode.ofBits (fieldOpcode w) = o) : decode w = instrOf o w := by
  subst h
  rfl

theorem decode_of_fieldOpcode {w : Word} (o : Opcode) (h : fieldOpcode w = o.toBits) : decode w = instrOf o w :=
  decode_of_opcode (by rw [h, Opcode.ofBits_toBits])

theorem decode_packRRR (op : Opcode) (a b c : Reg) : decode (packRRR op a b c) = instrOf op (packRRR op a b c) :=
  decode_of_fieldOpcode op (Laws.fieldOpcode_packRRR op a b c)

theorem decode_packRRI (op : Opcode) (a b : Reg) (i : BitVec 7) :
    decode (packRRI op a b i) = instrOf op (packRRI op a b i) :=
  decode_of_fieldOpcode op (Laws.fieldOpcode_packRRI op a b i)

theorem decode_packRI (op : Opcode) (a : Reg) (i : BitVec 10) : decode (packRI op a i) = instrOf op (packRI op a i) :=
  decode_of_fieldOpcode op (Laws.fieldOpcode_packRI op a i)

/-- Settles O1: the opcode field selects the constructor the word was packed for, and the fields read back are those it
was packed from. -/
theorem decodeEncodeRoundTrip : Obligations.DecodeEncodeRoundTrip := by
  intro i _
  cases i with
  | add | nand => simp [encode, decode_packRRR, instrOf]
  | lui => simp [encode, decode_packRI, instrOf]
  | addi | sw | lw | beq | jalr => simp [encode, decode_packRRI, instrOf]

theorem Reg.index_ofBits (b : BitVec 3) : (Reg.ofBits b).index = b.toNat := by
  revert b
  decide

/-- Settles O3: the clauses are the cases of `instrOf`. -/
theorem decodeReadsEveryField : Obligations.DecodeReadsEveryField :=
  ⟨Reg.index_ofBits, fun _ => ⟨decode_of_fieldOpcode .add, decode_of_fieldOpcode .addi, decode_of_fieldOpcode .nand,
    decode_of_fieldOpcode .lui, decode_of_fieldOpcode .sw, decode_of_fieldOpcode .lw, decode_of_fieldOpcode .beq,
    decode_of_fieldOpcode .jalr⟩⟩

/-- Settles O4: each word is written out, so the decoder is run on it. -/
theorem writtenWordsDecode : Obligations.WrittenWordsDecode := by
  unfold Obligations.WrittenWordsDecode
  decide

/-! A word packed again from its own fields. -/

theorem packRRI_fields (w : Word) :
    packRRI (Opcode.ofBits (fieldOpcode w)) (Reg.ofBits (fieldA w)) (Reg.ofBits (fieldB w)) (fieldImm7 w) = w := by
  apply BitVec.eq_of_toNat_eq
  rw [packRRI_toNat, Opcode.toBits_ofBits, Reg.toBits_ofBits, Reg.toBits_ofBits, fieldOpcode_toNat, fieldA_toNat,
    fieldB_toNat, fieldImm7_toNat]
  omega

theorem packRI_fields (w : Word) :
    packRI (Opcode.ofBits (fieldOpcode w)) (Reg.ofBits (fieldA w)) (fieldImm10 w) = w := by
  apply BitVec.eq_of_toNat_eq
  rw [packRI_toNat, Opcode.toBits_ofBits, Reg.toBits_ofBits, fieldOpcode_toNat, fieldA_toNat, fieldImm10_toNat]
  omega

/-- Format RRR has no field for bits 6:3, so packing puts zeros there (30_encoding.md R60). -/
theorem packRRR_fields (w : Word) :
    packRRR (Opcode.ofBits (fieldOpcode w)) (Reg.ofBits (fieldA w)) (Reg.ofBits (fieldB w)) (Reg.ofBits (fieldC w)) =
      w &&& 0xFF87 := by
  apply BitVec.eq_of_getLsbD_eq
  intro k hk
  interval_cases k <;> simp only [packRRR, BitVec.getLsbD_append] <;> simp [fieldOpcode, fieldA, fieldB, fieldC]

/-- The opcode number in the field, once the opcode is known. -/
theorem fieldOpcode_of_opcode {w : Word} {o : Opcode} (h : Opcode.ofBits (fieldOpcode w) = o) :
    fieldOpcode w = o.toBits := by
  rw [← h, Opcode.toBits_ofBits]

/-- Settles O2: the word is packed again from its own fields, and only format RRR, that of ADD and NAND, loses bits. -/
theorem encodeDecodeZeroesAddNandIgnoredBits : Obligations.EncodeDecodeZeroesAddNandIgnoredBits := by
  intro w
  have hRRR := packRRR_fields w
  have hRRI := packRRI_fields w
  have hRI := packRI_fields w
  cases h : Opcode.ofBits (fieldOpcode w) with
  | add | nand =>
    rw [h] at hRRR
    rw [decode_of_opcode h, fieldOpcode_of_opcode h, if_pos (by decide)]
    exact hRRR
  | lui =>
    rw [h] at hRI
    rw [decode_of_opcode h, fieldOpcode_of_opcode h, if_neg (by decide)]
    exact hRI
  | addi | sw | lw | beq | jalr =>
    rw [h] at hRRI
    rw [decode_of_opcode h, fieldOpcode_of_opcode h, if_neg (by decide)]
    exact hRRI

/-- Bits that a mask keeps are the same in two words that are the same under the mask. -/
theorem extractLsb'_eq_of_and_eq {w v m : Word} {start len : Nat} (hm : m.extractLsb' start len = BitVec.allOnes len)
    (h : w &&& m = v &&& m) : w.extractLsb' start len = v.extractLsb' start len := by
  have hfield := congrArg (BitVec.extractLsb' start len) h
  rwa [BitVec.extractLsb'_and, BitVec.extractLsb'_and, hm, BitVec.and_allOnes, BitVec.and_allOnes] at hfield

/-- Two words with the same opcode and register fields are the same ADD or NAND. -/
theorem instrOf_eq_of_fields {w v : Word} {o : Opcode} (ho : o = .add ∨ o = .nand) (hA : fieldA w = fieldA v)
    (hB : fieldB w = fieldB v) (hC : fieldC w = fieldC v) : instrOf o w = instrOf o v := by
  rcases ho with rfl | rfl <;> simp only [instrOf, hA, hB, hC]

/-- Settles O5: the masks keep the opcode and the register fields, and JALR does not read its `imm7`. -/
theorem ignoredBitsHaveNoEffect : Obligations.IgnoredBitsHaveNoEffect := by
  constructor
  · intro w v hop hmask
    have hopcode : fieldOpcode w = fieldOpcode v := extractLsb'_eq_of_and_eq (by decide) hmask
    have hdecoded : Opcode.ofBits (fieldOpcode w) = .add ∨ Opcode.ofBits (fieldOpcode w) = .nand :=
      hop.imp (congrArg Opcode.ofBits) (congrArg Opcode.ofBits)
    rw [decode_of_opcode (w := w) rfl, decode_of_opcode (w := v) rfl, ← hopcode]
    exact instrOf_eq_of_fields hdecoded (extractLsb'_eq_of_and_eq (by decide) hmask)
      (extractLsb'_eq_of_and_eq (by decide) hmask) (extractLsb'_eq_of_and_eq (by decide) hmask)
  · intro w v s hop hmask
    have hopcode : fieldOpcode w = fieldOpcode v := extractLsb'_eq_of_and_eq (by decide) hmask
    have hA : fieldA w = fieldA v := extractLsb'_eq_of_and_eq (by decide) hmask
    have hB : fieldB w = fieldB v := extractLsb'_eq_of_and_eq (by decide) hmask
    rw [decode_of_fieldOpcode .jalr hop, decode_of_fieldOpcode .jalr (hopcode ▸ hop)]
    simp only [instrOf, hA, hB]
    rfl

end Sys2Proof
end

section
/-! Regions, operands and results: the statements of 10_state.md section 2, 20_memory.md, 41_arithmetic_logic.md,
42_load_store.md and 43_control_transfer.md about one instruction. -/

namespace Sys2Proof.Machine

/-! The two regions. -/

theorem inProgramRegion_eq_false_iff (a : Addr) : inProgramRegion a = false ↔ 0x2000 ≤ a.toNat := by
  rw [Bool.eq_false_iff, Ne, inProgramRegion_iff]
  omega

theorem inDataRegion_eq_not_inProgramRegion (a : Addr) : inDataRegion a = !inProgramRegion a := by
  rw [Bool.eq_iff_iff, inDataRegion_iff, Bool.not_eq_true', inProgramRegion_eq_false_iff]

/-- The program region is where address bits 15:13 are zero (20_memory.md R31). -/
theorem inProgramRegion_iff_bits (a : Addr) : inProgramRegion a = true ↔ a.extractLsb' 13 3 = 0 := by
  have hbits : (a.extractLsb' 13 3).toNat = a.toNat / 2 ^ 13 := fieldOpcode_toNat a
  rw [inProgramRegion_iff, ← BitVec.toNat_inj, hbits]
  bv_omega

/-- Settles O8: by address and by bits 15:13, the data region is where the program region is not. -/
theorem regionsPartitionTheAddressSpace : Obligations.RegionsPartitionTheAddressSpace := by
  intro a
  refine ⟨inProgramRegion_iff a, inProgramRegion_iff_bits a, inDataRegion_iff a, ?_,
    inDataRegion_eq_not_inProgramRegion a⟩
  rw [inDataRegion_eq_not_inProgramRegion, Bool.not_eq_true', Bool.eq_false_iff, Ne, inProgramRegion_iff_bits]

/-- Settles O12: the lower bound alone puts the window's words in the data region. -/
theorem textWindowIsOrdinaryMemory : Obligations.TextWindowIsOrdinaryMemory := by
  intro w s a v hwf hlo _
  simp only [TextWindow.wellFormed, Bool.and_eq_true, decide_eq_true_eq] at hwf
  have hdata : inProgramRegion a = false := (inProgramRegion_eq_false_iff a).2 (hwf.1.trans hlo)
  exact ⟨s.writeMem_ok hdata v, by rw [State.readMem_writeMem, if_pos ⟨rfl, hdata⟩]⟩

/-! Operands. -/

theorem zext16_eq_ofNat (i : BitVec 7) : zext16 i = BitVec.ofNat 16 i.toNat := (BitVec.ofNat_toNat 16 i).symm

theorem sext16_toNat (i : BitVec 7) : (sext16 i).toNat = i.toNat + if 64 ≤ i.toNat then 65408 else 0 := by
  have hzext : (i.setWidth 16).toNat = i.toNat := zext16_toNat i
  simp only [sext16, BitVec.toNat_signExtend, hzext, BitVec.msb_eq_decide, decide_eq_true_eq]

theorem upperImmediate_eq_ofNat (i : BitVec 10) : upperImmediate i = BitVec.ofNat 16 (i.toNat * 64) := by
  rw [← upperImmediate_toNat, BitVec.ofNat_toNat, BitVec.setWidth_eq]

theorem State.effectiveAddress_toNat (s : State) (rB : Reg) (imm7 : BitVec 7) :
    (s.effectiveAddress rB imm7).toNat = ((s.readReg rB).toNat + imm7.toNat) % 65536 := by
  rw [State.effectiveAddress, BitVec.toNat_add, immOperand_eq, zext16_toNat]

/-- Settles O13: the immediate is zero-extended and the sum wraps; register 0 adds nothing. -/
theorem effectiveAddressRule : Obligations.EffectiveAddressRule := by
  intro s rB imm7
  refine ⟨zext16_toNat imm7, s.effectiveAddress_toNat rB imm7, ?_⟩
  rw [State.effectiveAddress_toNat, State.readReg_r0]
  bv_omega

/-- Settles O14: sign extension adds 65408 = 2^16 - 128 exactly from 64 on; the merge with 0 and with the old word are
those of `|||`; the rejecting range accepts the program region. -/
theorem parameterAlternatives : Obligations.ParameterAlternatives := by
  refine ⟨fun i hi => ?_, fun i hi => ?_, fun i => BitVec.zero_or, fun _ _ => rfl,
    fun a => ⟨rfl, inProgramRegion_iff a⟩⟩
  · apply BitVec.eq_of_toNat_eq
    rw [imm7Operand, imm7Operand, sext16_toNat, zext16_toNat, if_neg (by omega), Nat.add_zero]
  · apply BitVec.eq_of_toNat_eq
    rw [imm7Operand, imm7Operand, sext16_toNat, if_pos hi, BitVec.toNat_sub, zext16_toNat]
    bv_omega

/-! What each instruction answers. -/

theorem exec_add (rA rB rC : Reg) (s : State) :
    exec (.add rA rB rC) s = .next (s.retire rA (s.readReg rB + s.readReg rC)) := rfl
theorem exec_addi (rA rB : Reg) (imm7 : BitVec 7) (s : State) :
    exec (.addi rA rB imm7) s = .next (s.retire rA (s.readReg rB + zext16 imm7)) := rfl
theorem exec_nand (rA rB rC : Reg) (s : State) :
    exec (.nand rA rB rC) s = .next (s.retire rA (~~~(s.readReg rB &&& s.readReg rC))) := rfl
theorem exec_lui (rA : Reg) (imm10 : BitVec 10) (s : State) :
    exec (.lui rA imm10) s = .next (s.retire rA (upperImmediate imm10)) := rfl
theorem exec_sw (rA rB : Reg) (imm7 : BitVec 7) (s : State) :
    exec (.sw rA rB imm7) s = .next (s.writeMem (s.effectiveAddress rB imm7) (s.readReg rA)).2.incPc := rfl
theorem exec_lw (rA rB : Reg) (imm7 : BitVec 7) (s : State) :
    exec (.lw rA rB imm7) s = .next (s.retire rA (s.readMem (s.effectiveAddress rB imm7))) := rfl
theorem exec_jalr (rA rB : Reg) (imm7 : BitVec 7) (s : State) :
    exec (.jalr rA rB imm7) s =
      .next ((s.writeReg rA (s.pc + 1)).writePc ((s.writeReg rA (s.pc + 1)).readReg rB)) := rfl

theorem exec_beq_of_eq {rA rB : Reg} {s : State} (h : s.readReg rA = s.readReg rB) (imm7 : BitVec 7) :
    exec (.beq rA rB imm7) s = .next (s.writePc (s.pc + 1 + zext16 imm7)) := by
  rcases execBeq_cases rA rB imm7 s with ⟨-, e⟩ | ⟨hne, -⟩
  · exact e
  · exact absurd h hne

theorem exec_beq_of_ne {rA rB : Reg} {s : State} (h : s.readReg rA ≠ s.readReg rB) (imm7 : BitVec 7) :
    exec (.beq rA rB imm7) s = .next s.incPc := by
  rcases execBeq_cases rA rB imm7 s with ⟨heq, -⟩ | ⟨-, e⟩
  · exact absurd heq h
  · exact e

/-- Retiring into a register writes it, advances, and touches nothing else (41_arithmetic_logic.md R80). -/
theorem retire_frame (s : State) (rA : Reg) (v : Word) :
    (∀ r, (s.retire rA v).readReg r = if r = rA ∧ rA ≠ .r0 then v else s.readReg r) ∧
      (s.retire rA v).pc = s.pc + 1 ∧ (∀ a, (s.retire rA v).readMem a = s.readMem a) ∧ (s.retire rA v).bp = s.bp :=
  ⟨fun r => s.readReg_retire rA r v, rfl, fun _ => rfl, rfl⟩

/-- Settles O15: ADD retires the sum. -/
theorem addResultAndFrame : Obligations.AddResultAndFrame := fun rA rB rC s =>
  ⟨_, exec_add rA rB rC s, retire_frame s rA _⟩

/-- Settles O16: ADDI retires the sum with the zero-extended immediate. -/
theorem addiResultAndFrame : Obligations.AddiResultAndFrame := by
  intro rA rB imm7 s
  rw [← zext16_eq_ofNat]
  exact ⟨_, exec_addi rA rB imm7 s, retire_frame s rA _⟩

/-- Settles O17: the complement of the conjunction, bit by bit. -/
theorem nandResultAndFrame : Obligations.NandResultAndFrame := by
  intro rA rB rC s
  refine ⟨_, exec_nand rA rB rC s, fun hrA k hk => ?_, fun r hr => ?_, rfl, fun _ => rfl, rfl⟩
  · rw [State.readReg_retire, if_pos ⟨rfl, hrA⟩, BitVec.getLsbD_not, BitVec.getLsbD_and, decide_eq_true hk,
      Bool.true_and]
  · rw [State.readReg_retire, if_neg (by tauto)]

/-- Settles O18: LUI retires the upper immediate, whatever the register held. -/
theorem luiResultAndFrame : Obligations.LuiResultAndFrame := by
  intro rA imm10 s
  rw [← upperImmediate_eq_ofNat]
  exact ⟨_, exec_lui rA imm10 s, retire_frame s rA _⟩

/-- Settles O19: the three clauses about memory are the cases of `State.readMem_writeMem`. -/
theorem swResultAndFrame : Obligations.SwResultAndFrame := by
  intro rA rB imm7 s
  refine ⟨_, exec_sw rA rB imm7 s, fun hdata => ?_, fun hprogram => ?_, fun a ha => ?_, fun _ => rfl, rfl, rfl⟩
  · rw [State.incPc_readMem, State.readMem_writeMem, if_pos ⟨rfl, (inProgramRegion_eq_false_iff _).2 hdata⟩]
  · rw [State.incPc_readMem, s.writeMem_of_programRegion ((inProgramRegion_iff _).2 hprogram)]
  · rw [State.incPc_readMem, State.readMem_writeMem, if_neg fun h => ha h.1]

/-- Settles O20: LW retires the word at the effective address. -/
theorem lwResultAndFrame : Obligations.LwResultAndFrame := fun rA rB imm7 s =>
  ⟨_, exec_lw rA rB imm7 s, retire_frame s rA _⟩

/-- Settles O21: the two cases of the comparison. -/
theorem beqResultAndFrame : Obligations.BeqResultAndFrame := by
  intro rA rB imm7 s
  by_cases h : s.readReg rA = s.readReg rB
  · refine ⟨_, exec_beq_of_eq h imm7, fun _ => ?_, fun hne => absurd h hne, fun _ => rfl, fun _ => rfl, rfl⟩
    rw [State.writePc_pc, BitVec.toNat_add, BitVec.toNat_add, zext16_toNat]
    bv_omega
  · refine ⟨_, exec_beq_of_ne h imm7, fun heq => absurd heq h, fun _ => ?_, fun _ => rfl, fun _ => rfl, rfl⟩
    rw [State.incPc_pc, BitVec.toNat_add]
    bv_omega

/-- Settles O22: the target is read after the link is written. -/
theorem jalrResultAndFrame : Obligations.JalrResultAndFrame := by
  intro rA rB imm7 s
  refine ⟨_, exec_jalr rA rB imm7 s, fun r => s.readReg_writeReg rA r _, ?_, fun _ => rfl, rfl⟩
  rw [State.writePc_pc, State.readReg_writeReg]
  simp only [eq_comm]

/-- The two parts LUI and ADDI take of a constant add up to it (41_arithmetic_logic.md section 5). -/
theorem upperImmediate_add_zext16 (K : Word) :
    upperImmediate (K.extractLsb' 6 10) + zext16 ((K.extractLsb' 0 6).setWidth 7) = K := by
  apply BitVec.eq_of_toNat_eq
  rw [BitVec.toNat_add, upperImmediate_toNat, zext16_toNat, BitVec.toNat_setWidth, BitVec.extractLsb'_toNat,
    BitVec.extractLsb'_toNat, Nat.shiftRight_eq_div_pow, Nat.shiftRight_zero]
  omega

/-- Settles O23: ADDI adds the low part to the high part, which LUI has left in the register. -/
theorem luiThenAddiBuildsAnyConstant : Obligations.LuiThenAddiBuildsAnyConstant := by
  intro K rA s hrA
  refine ⟨_, _, exec_lui rA _ s, exec_addi rA rA _ _, ?_, fun r hr => ?_⟩
  · rw [State.readReg_retire, if_pos ⟨rfl, hrA⟩, State.readReg_retire, if_pos ⟨rfl, hrA⟩, upperImmediate_add_zext16]
  · rw [State.readReg_retire, if_neg fun h => hr h.1, State.readReg_retire, if_neg fun h => hr h.1]

/-- Settles O24: SW changes no register, so that the load reads the very address the store was made to. -/
theorem loadAfterStore : Obligations.LoadAfterStore := by
  intro rA rB rD imm7 s hrD
  refine ⟨_, _, exec_sw rA rB imm7 s, exec_lw rD rB imm7 _, ?_⟩
  rw [State.readReg_retire, if_pos ⟨rfl, hrD⟩, State.incPc_readMem]
  have haddress : State.effectiveAddress (s.writeMem (s.effectiveAddress rB imm7) (s.readReg rA)).2.incPc rB imm7 =
      s.effectiveAddress rB imm7 := rfl
  rw [haddress, State.readMem_writeMem]
  simp only [true_and, inProgramRegion_eq_false_iff]

/-- Retiring into register 0 only advances, as retiring into any register does. -/
theorem writesOnlyPcLike_retire (s : State) (rA : Reg) (v w : Word) :
    WritesOnlyPcLike s (.next (s.retire .r0 v)) (.next (s.retire rA w)) :=
  ⟨_, _, rfl, rfl, rfl⟩

/-- Settles O7: all writers but JALR end in `retire`. -/
theorem registerWriteRule : Obligations.RegisterWriteRule := by
  intro s
  refine ⟨fun r v hr => ⟨fun q => ?_, rfl, rfl, rfl⟩, fun _ => rfl, fun rA rB rC imm7 imm10 => ?_⟩
  · simp only [State.readReg_writeReg, hr, ne_eq, not_false_eq_true, and_true]
  · exact ⟨writesOnlyPcLike_retire s rA _ _, writesOnlyPcLike_retire s rA _ _, writesOnlyPcLike_retire s rA _ _,
      writesOnlyPcLike_retire s rA _ _, writesOnlyPcLike_retire s rA _ _, rfl⟩

end Sys2Proof.Machine
end

section
/-! The tick: the statements of 40_sequencer_tick.md and of 43_control_transfer.md section 3 over every instruction, and
the runs of ticks of 60_exceptions.md R125. -/

namespace Sys2Proof.Machine

/-! One tick. -/

/-- Settles O26: the accessor decodes the word that the tick fetches. -/
theorem currentInstructionIsNext : Obligations.CurrentInstructionIsNext := step_eq_exec_decode

/-- A word below 2^16 is its own table word. -/
theorem tableWord_of_lt {w : Nat} (h : w < 2 ^ 16) : tableWord 16 w = BitVec.ofNat 16 w := by
  rw [tableWord, Nat.mod_eq_of_lt h]

/-- Settles O27: the placed word is what a read at the program counter gives, and no other read changes. -/
theorem placedWordRunsNext : Obligations.PlacedWordRunsNext := by
  intro s w hw
  rw [State.withFetchWord_eq, tableWord_of_lt hw]
  refine ⟨?_, rfl, rfl, rfl, fun a ha => ?_⟩
  · rw [step_eq_exec_decode, State.placeFetchWord_pc, State.readMem_placeFetchWord, if_pos rfl]
  · rw [State.readMem_placeFetchWord, if_neg ha]

/-- Every instruction completes: a state agrees with itself. -/
theorem exec_completes (i : Instr) (s : State) : Completes (exec i s) := by
  obtain ⟨t, -, ht, -, -⟩ := exec_agrees (s := s) (s' := s) ⟨fun _ => rfl, rfl, fun _ => rfl⟩ i
  exact ⟨t, ht⟩

/-- Settles O28: for a tick, by `step_completes`. -/
theorem everyTickCompletes : Obligations.EveryTickCompletes := ⟨exec_completes, step_completes⟩

/-- All an instruction can do to the word at `a`: nothing, or the store of an SW in the data region. -/
theorem exec_readMem_cases {i : Instr} {s t : State} (h : exec i s = .next t) (a : Addr) :
    t.readMem a = s.readMem a ∨
      ∃ rA rB imm7, i = .sw rA rB imm7 ∧ a = s.effectiveAddress rB imm7 ∧ inProgramRegion a = false ∧
        t.readMem a = s.readReg rA := by
  rcases exec_mem_cases h with ⟨rA, rB, imm7, hi, hmem⟩ | ⟨-, hmem⟩
  · have hread : t.readMem a = (s.writeMem (s.effectiveAddress rB imm7) (s.readReg rA)).2.readMem a :=
      congrArg (Memory.read · a) hmem
    rw [State.readMem_writeMem] at hread
    split at hread
    next hstored =>
      obtain ⟨rfl, hdata⟩ := hstored
      exact .inr ⟨rA, rB, imm7, hi, rfl, hdata, hread⟩
    next => exact .inl hread
  · exact .inl (congrArg (Memory.read · a) hmem)

/-- Settles O30: a changed word is the second case of `exec_readMem_cases`. -/
theorem onlyStoreChangesMemory : Obligations.OnlyStoreChangesMemory := by
  intro s t a hstep hchanged
  rcases exec_readMem_cases hstep a with hsame | ⟨rA, rB, imm7, hi, ha, hdata, hread⟩
  · exact absurd hsame hchanged
  · exact ⟨rA, rB, imm7, hi, ha, (inProgramRegion_eq_false_iff a).1 hdata, hread⟩

/-- The register a decoded instruction writes is the one its rA field names, or none. -/
theorem destination_decode (w : Word) :
    destination (decode w) = .r0 ∨ destination (decode w) = Reg.ofBits (fieldA w) := by
  rw [decode_of_opcode rfl]
  cases Opcode.ofBits (fieldOpcode w) with
  | sw | beq => exact .inl rfl
  | add | addi | nand | lui | lw | jalr => exact .inr rfl

/-- Settles O31: a changed register is the destination, which has storage then, and SW and BEQ change none. -/
theorem onlyTheNamedRegisterChanges : Obligations.OnlyTheNamedRegisterChanges := by
  intro s t r hstep hchanged
  obtain ⟨⟨v, hwrite⟩, hkept⟩ := exec_regs_cases hstep
  have hread : t.readReg r = (s.writeReg (destination (decode s.fetch)) v).readReg r :=
    congrArg (Regs.read · r) hwrite
  rw [State.readReg_writeReg] at hread
  split at hread
  next hdest =>
    obtain ⟨rfl, hr0⟩ := hdest
    exact ⟨(destination_decode s.fetch).resolve_left hr0, hr0,
      fun hsw => hchanged (congrArg (Regs.read · _) (hkept (.inl hsw))),
      fun hbeq => hchanged (congrArg (Regs.read · _) (hkept (.inr hbeq)))⟩
  next => exact absurd hread hchanged

/-- Settles O32: the next state of each instruction, its program counter read off. -/
theorem successorOfEveryInstruction : Obligations.SuccessorOfEveryInstruction := by
  intro s
  rw [step_eq_exec_decode]
  cases decode (s.readMem s.pc) with
  | add | addi | nand | lui | sw | lw | jalr => exact ⟨_, rfl, rfl⟩
  | beq rA rB imm7 =>
    dsimp only
    rw [← zext16_eq_ofNat]
    by_cases h : s.readReg rA = s.readReg rB
    · exact ⟨_, exec_beq_of_eq h imm7, (if_pos h).symm⟩
    · exact ⟨_, exec_beq_of_ne h imm7, (if_neg h).symm⟩

/-- Where an instruction other than JALR goes on: to the next word, or a taken branch's offset further. -/
theorem exec_pc_cases {i : Instr} {s t : State} (h : exec i s = .next t) (hi : i.opcode ≠ .jalr) :
    t.pc = s.pc + 1 ∨ ∃ imm7, t.pc = s.pc + 1 + zext16 imm7 := by
  cases i with
  | beq rA rB imm7 =>
    by_cases heq : s.readReg rA = s.readReg rB
    · rw [exec_beq_of_eq heq] at h
      cases h
      exact .inr ⟨imm7, rfl⟩
    · rw [exec_beq_of_ne heq] at h
      cases h
      exact .inl rfl
  | jalr => exact absurd rfl hi
  | add | addi | nand | lui | sw | lw =>
    cases h
    exact .inl rfl

/-- Settles O33: 1 for the advance, and a zero-extended offset of at most 127. -/
theorem onlyJalrJumpsAnywhere : Obligations.OnlyJalrJumpsAnywhere := by
  intro s t hstep hi
  rcases exec_pc_cases hstep hi with hpc | ⟨imm7, hpc⟩
  · rw [hpc]
    bv_omega
  · have hoffset := zext16_toNat imm7
    rw [hpc]
    bv_omega

/-! The canonical form. -/

theorem State.wf_iff (s : State) : s.wf = true ↔ s.mem.wf = true ∧ s.bp.wf = true := by
  rw [State.wf, Bool.and_eq_true]

theorem exec_wf {i : Instr} {s t : State} (hs : s.wf = true) (h : exec i s = .next t) : t.wf = true := by
  obtain ⟨hmem, hbp⟩ := s.wf_iff.1 hs
  rw [State.wf_iff, exec_bp h]
  rcases exec_mem_cases h with ⟨rA, rB, imm7, -, e⟩ | ⟨-, e⟩ <;> rw [e]
  · exact ⟨Memory.writeUnforced_wf hmem _ _, hbp⟩
  · exact ⟨hmem, hbp⟩

/-- Settles O34: a tick executes one instruction, and `exec_wf` holds of each. -/
theorem stepKeepsCanonicalForm : Obligations.StepKeepsCanonicalForm := fun _ _ => exec_wf

/-- Settles O35: nothing is listed after reset. -/
theorem resetIsCanonical : Obligations.ResetIsCanonical := State.reset_wf

/-- Settles O36: the word read at the next program counter is the one just stored. -/
theorem storedWordIsFetchedNext : Obligations.StoredWordIsFetchedNext := by
  intro s rA rB imm7 hdecode hnext hdata
  refine ⟨_, by rw [step_eq_exec_decode, hdecode, exec_sw], ?_⟩
  rw [step_eq_exec_decode, State.incPc_readMem, State.incPc_pc, State.writeMem_pc, hnext, State.readMem_writeMem,
    if_pos ⟨rfl, (inProgramRegion_eq_false_iff _).2 hdata⟩]

/-! Runs of ticks (60_exceptions.md R125). -/

@[simp] theorem stepN_zero (s : State) : stepN 0 s = .next s := rfl

theorem stepN_succ {s t : State} (h : step s = .next t) (n : Nat) : stepN (n + 1) s = stepN n t := by
  rw [stepN, h]

/-- A run of `n + 1` ticks is a tick and a run of `n`. -/
theorem stepN_succ_cases {n : Nat} {s u : State} (h : stepN (n + 1) s = .next u) :
    ∃ t, step s = .next t ∧ stepN n t = .next u := by
  obtain ⟨t, ht⟩ := step_completes s
  exact ⟨t, ht, stepN_succ ht n ▸ h⟩

theorem stepN_completes (n : Nat) (s : State) : Completes (stepN n s) := by
  induction n generalizing s with
  | zero => exact ⟨s, rfl⟩
  | succ n ih =>
    obtain ⟨t, ht⟩ := step_completes s
    rw [stepN_succ ht]
    exact ih t

/-- What every tick keeps, every run of ticks keeps. -/
theorem stepN_keeps {P : State → Prop} (hstep : ∀ s t, P s → step s = .next t → P t) (n : Nat) {s t : State}
    (hs : P s) (h : stepN n s = .next t) : P t := by
  induction n generalizing s with
  | zero =>
    cases h
    exact hs
  | succ n ih =>
    obtain ⟨u, hu, hrest⟩ := stepN_succ_cases h
    exact ih (hstep s u hs hu) hrest

/-- No run of ticks changes the breakpoint set. -/
theorem stepN_bp {n : Nat} {s t : State} (h : stepN n s = .next t) : t.bp = s.bp :=
  stepN_keeps (P := fun u => u.bp = s.bp) (fun _ _ hu hstep => (exec_bp hstep).trans hu) n rfl h

theorem stepN_add {m : Nat} {s t : State} (h : stepN m s = .next t) (n : Nat) : stepN (m + n) s = stepN n t := by
  induction m generalizing s with
  | zero =>
    cases h
    rw [Nat.zero_add]
  | succ m ih =>
    obtain ⟨u, hu, hrest⟩ := stepN_succ_cases h
    rw [Nat.add_right_comm, stepN_succ hu, ih hrest]

/-- Settles O44: this is `stepN_add`. -/
theorem stepCountsAdd : Obligations.StepCountsAdd := fun _ n _ _ h => stepN_add h n

/-- A run of `k + 1` ticks is a run of `k` and a tick. -/
theorem stepN_succ_last {k : Nat} {s t : State} (h : stepN (k + 1) s = .next t) :
    ∃ u, stepN k s = .next u ∧ step u = .next t := by
  obtain ⟨u, hu⟩ := stepN_completes k s
  rw [stepN_add hu] at h
  obtain ⟨v, hv, hvt⟩ := stepN_succ_cases h
  cases hvt
  exact ⟨u, hu, hv⟩

theorem hostOp_step {n : Nat} {s t : State} (h : stepN n s = .next t) :
    hostOp (.step n) s = .next (.ok, t) := by
  rw [hostOp, h, replyOk]

/-- Settles O43: one tick always completes, so any number does. -/
theorem stepNPerformsNTicks : Obligations.StepNPerformsNTicks := by
  intro n s
  obtain ⟨t, ht⟩ := step_completes s
  obtain ⟨u, hu⟩ := stepN_completes n s
  exact ⟨stepN_zero s, ⟨t, ht, stepN_succ ht n⟩, u, hu, hostOp_step hu⟩

/-- An instruction does the same whatever the breakpoint set, and hands it on. -/
theorem exec_with_bp {i : Instr} {s t : State} (h : exec i s = .next t) (b : BreakpointSet) :
    exec i { s with bp := b } = .next { t with bp := b } := by
  cases i with
  | beq rA rB imm7 =>
    by_cases heq : s.readReg rA = s.readReg rB
    · rw [exec_beq_of_eq heq] at h
      cases h
      exact exec_beq_of_eq (s := { s with bp := b }) heq imm7
    · rw [exec_beq_of_ne heq] at h
      cases h
      exact exec_beq_of_ne (s := { s with bp := b }) heq imm7
  | add | addi | nand | lui | sw | lw | jalr =>
    cases h
    rfl

theorem step_with_bp {s t : State} (h : step s = .next t) (b : BreakpointSet) :
    step { s with bp := b } = .next { t with bp := b } :=
  exec_with_bp h b

/-- Settles O45, by induction on the number of ticks. -/
theorem breakpointsAreInvisibleToTicks : Obligations.BreakpointsAreInvisibleToTicks := by
  intro n
  induction n with
  | zero =>
    intro s t b h
    cases h
    rfl
  | succ n ih =>
    intro s t b h
    obtain ⟨u, hu, hrest⟩ := stepN_succ_cases h
    rw [stepN_succ (step_with_bp hu b), ih u t b hrest]

/-- The zero word is ADD r0, r0, r0, which only advances (30_encoding.md section 6). -/
theorem step_of_zero_word {s : State} (h : s.readMem s.pc = 0) : step s = .next { s with pc := s.pc + 1 } := by
  rw [step_eq_exec_decode, h]
  rfl

/-- Settles O37: no tick changes memory, so each one fetches the zero word again. -/
theorem zeroedMemoryRunsAsNoOperations : Obligations.ZeroedMemoryRunsAsNoOperations := by
  intro n
  induction n with
  | zero =>
    intro s _
    rw [stepN_zero, BitVec.add_zero]
  | succ n ih =>
    intro s hzero
    have hpc : s.pc + 1 + BitVec.ofNat 16 n = s.pc + BitVec.ofNat 16 (n + 1) := by bv_omega
    rw [stepN_succ (step_of_zero_word (hzero s.pc)), ih { s with pc := s.pc + 1 } hzero, hpc]

/-- A state that a tick gives back is given back by any number of ticks. -/
theorem stepN_of_step_self {s : State} (h : step s = .next s) (n : Nat) : stepN n s = .next s := by
  induction n with
  | zero => rfl
  | succ n ih => rw [stepN_succ h, ih]

/-- Settles O38: with register 0 for the link, the jump to its own address gives the state back. -/
theorem unlinkedSelfJumpSpins : Obligations.UnlinkedSelfJumpSpins := by
  intro n s rB imm7 hdecode htarget
  have hself : step s = .next s := by
    rw [step_eq_exec_decode, hdecode, exec_jalr, show s.writeReg .r0 (s.pc + 1) = s from rfl, htarget]
    rfl
  exact stepN_of_step_self hself n

/-- Settles O59: the tick that is requested completes. -/
theorem coreTicksOnlyOnRequest : Obligations.CoreTicksOnlyOnRequest := by
  intro s
  obtain ⟨t, ht⟩ := step_completes s
  refine ⟨rfl, t, ht, ?_⟩
  rw [sequencerPorts, if_pos rfl, ht]

end Sys2Proof.Machine
end

section
/-! Run-to-breakpoint, resets and sessions: the statements of 60_exceptions.md section 4 and 70_reset_and_hazards.md
section 1. -/

namespace Sys2Proof.Machine

/-! Run-to-breakpoint, poll by poll (60_exceptions.md R128). -/

@[simp] theorem runToBreakpoint_nil (s : State) : runToBreakpoint [] s = .next (.stillRunning, s) := rfl

@[simp] theorem runToBreakpoint_cancel (polls : List Bool) (s : State) :
    runToBreakpoint (true :: polls) s = .next (.cancelled, s) := rfl

/-- A poll without cancellation: a tick, then the test of the new program counter. -/
theorem runToBreakpoint_tick {s t : State} (h : step s = .next t) (polls : List Bool) :
    runToBreakpoint (false :: polls) s =
      if t.pc ∈ s.bp then .next (.hitBreakpoint t.pc, t) else runToBreakpoint polls t := by
  have hbp : t.bp = s.bp := exec_bp h
  rw [runToBreakpoint, h, ← hbp]
  rfl

/-- None of the first `k` ticks arrives at a breakpoint. -/
def NoHitWithin (k : Nat) (s : State) : Prop :=
  ∀ (j : Nat) (u : State), 1 ≤ j → j ≤ k → stepN j s = .next u → u.pc ∉ s.bp

/-- The first tick arrives at no breakpoint, and none of the `k` after it does. -/
theorem NoHitWithin.after_tick {k : Nat} {s t : State} (h : NoHitWithin (k + 1) s) (ht : step s = .next t) :
    t.pc ∉ s.bp ∧ NoHitWithin k t := by
  refine ⟨h 1 t (le_refl 1) (by omega) (stepN_succ ht 0), fun j u _ hj hu => ?_⟩
  rw [show t.bp = s.bp from exec_bp ht]
  exact h (j + 1) u (by omega) (by omega) ((stepN_succ ht j).trans hu)

/-- As long as no poll cancels and no tick arrives at a breakpoint, the run goes on from the state reached. -/
theorem runToBreakpoint_through {k : Nat} {s t : State} (h : stepN k s = .next t) (hno : NoHitWithin k s)
    (polls : List Bool) : runToBreakpoint (List.replicate k false ++ polls) s = runToBreakpoint polls t := by
  induction k generalizing s with
  | zero =>
    cases h
    rfl
  | succ k ih =>
    obtain ⟨u, hu, hrest⟩ := stepN_succ_cases h
    obtain ⟨hpc, hno'⟩ := hno.after_tick hu
    rw [List.replicate_succ, List.cons_append, runToBreakpoint_tick hu, if_neg hpc, ih hrest hno']

/-- Settles O48: the run goes through the first `k` ticks, and the next one arrives. -/
theorem runStopsAtTheFirstBreakpoint : Obligations.RunStopsAtTheFirstBreakpoint := by
  intro k s t polls h hhit hno
  obtain ⟨u, hu, ht⟩ := stepN_succ_last h
  have hpolls : List.replicate (k + 1) false ++ polls = List.replicate k false ++ false :: polls := by
    rw [List.replicate_succ', List.append_assoc, List.singleton_append]
  rw [hpolls, runToBreakpoint_through hu hno, runToBreakpoint_tick ht, stepN_bp hu, if_pos hhit]

/-- Settles O49: the run goes through the `k` ticks, and there it meets the cancellation, or no poll any more. -/
theorem runEndsOnCancellationBetweenTicks : Obligations.RunEndsOnCancellationBetweenTicks := by
  intro k s t polls h hno
  constructor
  · rw [runToBreakpoint_through h hno, runToBreakpoint_cancel]
  · have hrun := runToBreakpoint_through h hno []
    rwa [List.append_nil, runToBreakpoint_nil] at hrun

/-- Settles O50, by induction on the polls. -/
theorem runEndsAtATickBoundary : Obligations.RunEndsAtATickBoundary := by
  intro polls
  induction polls with
  | nil => exact fun s => ⟨0, .stillRunning, s, rfl, le_refl 0, rfl, .inr (.inr ⟨rfl, rfl⟩)⟩
  | cons cancel polls ih =>
    intro s
    cases cancel with
    | true => exact ⟨0, .cancelled, s, rfl, Nat.zero_le _, rfl, .inr (.inl ⟨rfl, rfl⟩)⟩
    | false =>
      obtain ⟨u, hu⟩ := step_completes s
      rw [runToBreakpoint_tick hu]
      by_cases hhit : u.pc ∈ s.bp
      · exact ⟨1, .hitBreakpoint u.pc, u, if_pos hhit, Nat.succ_pos _, stepN_succ hu 0, .inl ⟨rfl, hhit, le_refl 1⟩⟩
      · obtain ⟨n, r, t, hrun, hn, hticks, hwhy⟩ := ih u
        rw [show u.bp = s.bp from exec_bp hu] at hwhy
        rw [if_neg hhit]
        refine ⟨n + 1, r, t, hrun, Nat.succ_le_succ hn, (stepN_succ hu n).trans hticks, ?_⟩
        rcases hwhy with ⟨hr, hbp, -⟩ | ⟨hr, hpoll⟩ | ⟨hr, hlast⟩
        · exact .inl ⟨hr, hbp, Nat.succ_pos n⟩
        · exact .inr (.inl ⟨hr, hpoll⟩)
        · exact .inr (.inr ⟨hr, congrArg (· + 1) hlast⟩)

/-! The resets and the commands that answer at once. -/

/-- Settles O39: the session reset answers the reset state. -/
theorem sessionResetZeroesEverything : Obligations.SessionResetZeroesEverything := fun _ =>
  ⟨Regs.read_zero, rfl, State.readMem_reset, fun _ => List.not_mem_nil, rfl⟩

@[simp] theorem hostOp_regReset (s : State) : hostOp .regReset s = .next (.ok, regReset s) := rfl
@[simp] theorem hostOp_setPc (a : Addr) (s : State) : hostOp (.setPc a) s = .next (.ok, s.writePc a) := rfl

/-- Settles O40: the register reset touches registers and program counter only. -/
theorem registerResetKeepsMemory : Obligations.RegisterResetKeepsMemory := fun s =>
  ⟨_, hostOp_regReset s, Regs.read_zero, rfl, fun _ => rfl, rfl⟩

/-- Settles O42: the write of the program counter is accepted, and the next fetch is at the new one. -/
theorem setPcAcceptsAnyAddress : Obligations.SetPcAcceptsAnyAddress := fun s a =>
  ⟨_, hostOp_setPc a s, rfl, fun _ => rfl, fun _ => rfl, rfl, step_eq_exec_decode _⟩

/-- Settles O53: the two cases of `command`. -/
theorem malformedCommandChangesNothing : Obligations.MalformedCommandChangesNothing := fun _ _ => ⟨rfl, rfl⟩

/-! Sessions. -/

/-- All a host operation can do to the state: the poke, the changes of program counter, breakpoints or registers alone,
or some number of ticks. -/
theorem hostOp_cases {op : HostOp} {s t : State} {r : Reply} (h : hostOp op s = .next (r, t)) :
    (∃ a v, op = .poke a v ∧ t = (s.pokeMem a v).2) ∨ (∃ a, t = s.writePc a) ∨ (∃ a, t = addBreakpoint a s) ∨
      (∃ a, t = removeBreakpoint a s) ∨ t = regReset s ∨ ∃ n, stepN n s = .next t := by
  cases op with
  | poke a v =>
    cases h
    exact .inl ⟨a, v, rfl, rfl⟩
  | setPc a =>
    cases h
    exact .inr (.inl ⟨a, rfl⟩)
  | addBreakpoint a =>
    cases h
    exact .inr (.inr (.inl ⟨a, rfl⟩))
  | removeBreakpoint a =>
    cases h
    exact .inr (.inr (.inr (.inl ⟨a, rfl⟩)))
  | regReset =>
    cases h
    exact .inr (.inr (.inr (.inr (.inl rfl))))
  | step n =>
    obtain ⟨u, hu⟩ := stepN_completes n s
    rw [hostOp_step hu] at h
    cases h
    exact .inr (.inr (.inr (.inr (.inr ⟨n, hu⟩))))
  | runToBreakpoint polls =>
    obtain ⟨n, r', u, hrun, -, hticks, -⟩ := runEndsAtATickBoundary polls s
    rw [hostOp, hrun] at h
    cases h
    exact .inr (.inr (.inr (.inr (.inr ⟨n, hticks⟩))))

theorem hostOp_completes (op : HostOp) (s : State) : ∃ r t, hostOp op s = .next (r, t) := by
  cases op with
  | step n =>
    obtain ⟨u, hu⟩ := stepN_completes n s
    exact ⟨_, u, hostOp_step hu⟩
  | runToBreakpoint polls =>
    obtain ⟨-, r, u, hrun, -⟩ := runEndsAtATickBoundary polls s
    exact ⟨r, u, hrun⟩
  | poke | setPc | addBreakpoint | removeBreakpoint | regReset => exact ⟨_, _, rfl⟩

/-- A session goes on after each operation, unless that is a run that has not returned (log 13). -/
theorem session_cons {op : HostOp} {s t : State} {r : Reply} (h : hostOp op s = .next (r, t)) (ops : List HostOp) :
    session (op :: ops) s = if r = .stillRunning then .next t else session ops t := by
  rw [session, h]
  cases r <;> rfl

theorem session_completes (ops : List HostOp) (s : State) : Completes (session ops s) := by
  induction ops generalizing s with
  | nil => exact ⟨s, rfl⟩
  | cons op ops ih =>
    obtain ⟨r, t, ht⟩ := hostOp_completes op s
    rw [session_cons ht]
    split
    · exact ⟨t, rfl⟩
    · exact ih t

/-- What each of its operations keeps, the session keeps. -/
theorem session_keeps {P : State → Prop} {ops : List HostOp}
    (hop : ∀ op ∈ ops, ∀ s r t, P s → hostOp op s = .next (r, t) → P t) {s t : State} (hs : P s)
    (h : session ops s = .next t) : P t := by
  induction ops generalizing s with
  | nil =>
    cases h
    exact hs
  | cons op ops ih =>
    obtain ⟨r, u, hu⟩ := hostOp_completes op s
    have hPu : P u := hop op List.mem_cons_self s r u hs hu
    rw [session_cons hu] at h
    split at h
    · cases h
      exact hPu
    · exact ih (fun op' hmem => hop op' (List.mem_cons_of_mem op hmem)) hPu h

theorem SameProgramRegion.trans {s t u : State} (hst : SameProgramRegion s t) (htu : SameProgramRegion t u) :
    SameProgramRegion s u := fun a ha => (htu a ha).trans (hst a ha)

/-- No number of ticks changes the program region. -/
theorem stepN_sameProgramRegion {n : Nat} {s t : State} (h : stepN n s = .next t) : SameProgramRegion s t :=
  stepN_keeps (P := SameProgramRegion s) (fun _ _ hu hstep => hu.trans (exec_sameProgramRegion hstep)) n
    (fun _ _ => rfl) h

/-- Of the host operations only a poke into the program region changes it. -/
theorem hostOp_sameProgramRegion {op : HostOp} {s t : State} {r : Reply} (hop : op.pokesProgramRegion = false)
    (h : hostOp op s = .next (r, t)) : SameProgramRegion s t := by
  rcases hostOp_cases h with ⟨a, v, rfl, rfl⟩ | ⟨a, rfl⟩ | ⟨a, rfl⟩ | ⟨a, rfl⟩ | rfl | ⟨n, hticks⟩
  case inl =>
    intro b hb
    rw [State.readMem_pokeMem, if_neg]
    rintro rfl
    exact Bool.false_ne_true (hop.symm.trans hb)
  case inr.inr.inr.inr.inr => exact stepN_sameProgramRegion hticks
  all_goals exact fun _ _ => rfl

/-- Settles O51: `session_keeps` with the agreement with the first state on the program region for the invariant. -/
theorem programRegionChangesOnlyByPoke : Obligations.ProgramRegionChangesOnlyByPoke := by
  intro ops s t hops h
  exact session_keeps (P := SameProgramRegion s)
    (fun op hmem _ _ _ hu hnext => hu.trans (hostOp_sameProgramRegion (hops op hmem) hnext)) (fun _ _ => rfl) h

/-- Every host operation keeps the canonical form. -/
theorem hostOp_wf {op : HostOp} {s t : State} {r : Reply} (hs : s.wf = true) (h : hostOp op s = .next (r, t)) :
    t.wf = true := by
  obtain ⟨hmem, hbp⟩ := s.wf_iff.1 hs
  rcases hostOp_cases h with ⟨a, v, -, rfl⟩ | ⟨a, rfl⟩ | ⟨a, rfl⟩ | ⟨a, rfl⟩ | rfl | ⟨n, hticks⟩
  · exact (State.wf_iff _).2 ⟨Memory.writeForced_wf hmem a v, hbp⟩
  · exact (State.wf_iff _).2 ⟨hmem, hbp⟩
  · exact (State.wf_iff _).2 ⟨hmem, BreakpointSet.add_wf hbp a⟩
  · exact (State.wf_iff _).2 ⟨hmem, BreakpointSet.remove_wf hbp a⟩
  · exact (State.wf_iff _).2 ⟨hmem, hbp⟩
  · exact stepN_keeps (P := fun u => u.wf = true) (fun _ _ => exec_wf) n hs hticks

/-- Settles O52: `session_completes` gives the state and `session_keeps` its form. -/
theorem sessionsKeepCanonicalForm : Obligations.SessionsKeepCanonicalForm := by
  intro ops s hs
  obtain ⟨t, ht⟩ := session_completes ops s
  exact ⟨t, ht, session_keeps (P := fun u => u.wf = true) (fun _ _ _ _ _ => hostOp_wf) hs ht⟩

end Sys2Proof.Machine
end

section
/-! The load: the statement of 70_reset_and_hazards.md R144. -/

namespace Sys2Proof.Machine

/-- Past the capacity no token is read (70_reset_and_hazards.md R144). -/
theorem loadFrom_full {a : Nat} (ha : 0x1FFF < a) (ts : List Token) (m : Memory) : loadFrom ts a m = (.ok, m) := by
  cases ts with
  | nil => rfl
  | cons t ts => exact if_pos ha

/-- Tokens after enough words to fill the program region do not matter. -/
theorem loadFrom_append_of_full (ts : List Token) (ws : List Word) {a : Nat} (m : Memory)
    (hfull : 0x2000 ≤ a + ws.length) : loadFrom (ws.map .word ++ ts) a m = loadFrom (ws.map .word) a m := by
  induction ws generalizing a m with
  | nil =>
    have ha : 0x1FFF < a := hfull
    rw [loadFrom_full ha, loadFrom_full ha]
  | cons v ws ih =>
    rw [List.length_cons] at hfull
    rw [List.map_cons, List.cons_append]
    rcases Nat.lt_or_ge 0x1FFF a with ha | ha
    · rw [loadFrom_full ha, loadFrom_full ha]
    · rw [loadFrom_word ha, loadFrom_word ha, ih _ (by omega)]

/-- A load of words reads no more than the first 8192 of them. -/
theorem loadFrom_take (ws : List Word) (m : Memory) :
    loadFrom (ws.map .word) 0 m = loadFrom ((ws.take 0x2000).map .word) 0 m := by
  rcases Nat.lt_or_ge ws.length 0x2000 with hlt | hge
  · rw [List.take_of_length_le hlt.le]
  · have hsplit : ws.map Token.word = (ws.take 0x2000).map .word ++ (ws.drop 0x2000).map .word := by
      rw [← List.map_append, List.take_append_drop]
    rw [hsplit, loadFrom_append_of_full]
    rw [List.length_take]
    omega

/-- Words alone are all loaded, as far as they fit. -/
theorem loadFrom_words_only (ws : List Word) (m : Memory) :
    ∃ m', loadFrom (ws.map .word) 0 m = (.ok, m') ∧
      ∀ b : Addr, m'.read b = if b.toNat < ws.length ∧ b.toNat ≤ 0x1FFF then ws.getD b.toNat 0 else m.read b := by
  have hfit : 0 + (ws.take 0x2000).length ≤ 0x2000 := by
    rw [List.length_take]
    omega
  obtain ⟨m', hload, hread⟩ := loadFrom_words [] (ws.take 0x2000) m hfit
  refine ⟨m', ?_, fun b => ?_⟩
  · rw [loadFrom_take, ← List.append_nil (List.map _ _), hload]
    rfl
  · rw [hread b, Nat.sub_zero, List.length_take]
    by_cases hb : b.toNat < ws.length ∧ b.toNat ≤ 0x1FFF
    · rw [if_pos (by omega), if_pos hb, List.getD_eq_getElem?_getD, List.getD_eq_getElem?_getD,
        List.getElem?_take_of_lt (by omega)]
    · rw [if_neg (by omega), if_neg hb]

/-- Settles O54: `loadFrom_words_only` for the words, `loadFrom_append_of_full` for what stands after 8192 of them. -/
theorem loadFillsTheProgramRegion : Obligations.LoadFillsTheProgramRegion := by
  intro ws s
  constructor
  · obtain ⟨m, hload, hread⟩ := loadFrom_words_only ws s.mem
    refine ⟨{ s with mem := m }, ?_, hread, rfl, rfl, rfl⟩
    simp only [load, hload]
  · intro hlength rest
    simp only [load, loadFrom_append_of_full rest ws s.mem (show 0x2000 ≤ 0 + ws.length by omega)]

end Sys2Proof.Machine
end

section
/-! The blocks at their ports: the statements of 10_state.md section 8 and 20_memory.md section 7. -/

namespace Sys2Proof.Machine

/-- The write enable: a write that is forced or outside the program region (20_memory.md R46). -/
theorem memoryWriteEnable_eq (p : MemoryIn) :
    memoryWriteEnable p = (p.we && (p.forced || !inProgramRegion p.addr)) := by
  have hregion : decide (p.addr.extractLsb' 13 3 ≠ 0) = !inProgramRegion p.addr := by
    rw [Bool.eq_iff_iff, decide_eq_true_eq, Ne, ← inProgramRegion_iff_bits, Bool.not_eq_true, Bool.not_eq_true']
  rw [memoryWriteEnable, hregion]

/-- An access without reset: the word before it, the error of a refused write, and the write where it is enabled. -/
theorem memoryPorts_of_not_reset {p : MemoryIn} (h : p.reset = false) (m : Memory) :
    memoryPorts p m = ({ rdata := m.read p.addr, err := p.we && !p.forced && inProgramRegion p.addr },
      if p.we && (p.forced || !inProgramRegion p.addr) then m.set p.addr p.wdata else m) := by
  rw [memoryPorts, h, memoryWriteEnable_eq]
  rfl

/-- Settles O57: the unforced write has its two cases, the forced write is always enabled, and no write is made without
`we`. -/
theorem memoryPortsRefineThePrimitives : Obligations.MemoryPortsRefineThePrimitives := by
  intro m a v forced
  rw [memoryPorts_of_not_reset rfl, memoryPorts_of_not_reset rfl, memoryPorts_of_not_reset rfl]
  refine ⟨?_, rfl, rfl⟩
  rcases m.writeUnforced_cases a v with ⟨hregion, e⟩ | ⟨hregion, e⟩ <;> rw [e, hregion] <;> rfl

/-- Settles O60: the reset lists no word, and `err` does not look at it. -/
theorem memoryPortsResetZeroesEveryWord : Obligations.MemoryPortsResetZeroesEveryWord := by
  intro p m hreset
  have hmem : (memoryPorts p m).2 = [] := by rw [memoryPorts, hreset, if_pos rfl]
  refine ⟨fun a => by rw [hmem]; rfl, rfl, ?_⟩
  rw [← inProgramRegion_iff, memoryPorts, Bool.and_eq_true, Bool.and_eq_true, Bool.not_eq_true', and_assoc]

theorem regFileWrite_pc (p : RegFileIn) (s : State) : (regFileWrite p s).pc = s.pc := by
  rw [regFileWrite]
  split <;> rfl

theorem regFileWrite_mem (p : RegFileIn) (s : State) : (regFileWrite p s).mem = s.mem := by
  rw [regFileWrite]
  split <;> rfl

theorem regFileWrite_bp (p : RegFileIn) (s : State) : (regFileWrite p s).bp = s.bp := by
  rw [regFileWrite]
  split <;> rfl

theorem regFileWrite_readReg (p : RegFileIn) (s : State) (r : Reg) :
    (regFileWrite p s).readReg r =
      if p.we = true ∧ r = Reg.ofBits p.waddr ∧ r ≠ .r0 then p.wdata else s.readReg r := by
  rw [regFileWrite]
  cases p.we with
  | false => simp
  | true =>
    rw [if_pos rfl, State.readReg_writeReg]
    refine if_congr ?_ rfl rfl
    constructor
    · rintro ⟨rfl, hr⟩
      exact ⟨rfl, rfl, hr⟩
    · rintro ⟨-, rfl, hr⟩
      exact ⟨rfl, hr⟩

/-- The program counter's part of an access changes the program counter alone. -/
theorem regFilePc_eq (p : RegFileIn) (s : State) :
    regFilePc p s = { s with pc := if p.pcLoad then p.pcIn else if p.pcInc then s.pc + 1 else s.pc } := by
  rw [regFilePc]
  split
  · rfl
  · split <;> rfl

/-- Settles O58: a reset overrides the access; without one, the write port's part and then the program counter's. -/
theorem regFilePortsRefineTheOperations : Obligations.RegFilePortsRefineTheOperations := by
  intro p s
  rw [regFilePorts]
  cases p.reset with
  | true => exact ⟨rfl, fun _ => rfl, nofun, nofun, rfl, rfl⟩
  | false =>
    rw [regFilePc_eq]
    refine ⟨rfl, nofun, fun _ r => regFileWrite_readReg p s r, fun _ => ?_, regFileWrite_mem p s, regFileWrite_bp p s⟩
    rw [← regFileWrite_pc p s]
    rfl

end Sys2Proof.Machine
end

section
/-! The canonical forms are faithful: the statement about the representation (log 9, 10). -/

namespace Sys2Proof.Machine

/-- Two lists in strictly rising order of a key are equal if they have the same members. -/
theorem eq_of_mem_iff_of_pairwise_key {α : Type} (key : α → Nat) {l k : List α}
    (hl : l.Pairwise fun x y => key x < key y) (hk : k.Pairwise fun x y => key x < key y)
    (hmem : ∀ x, x ∈ l ↔ x ∈ k) : l = k := by
  have : Std.Irrefl fun x y : α => key x < key y := ⟨fun x => Nat.lt_irrefl (key x)⟩
  have : Std.Antisymm fun x y : α => key x < key y := ⟨fun _ _ h h' => absurd h' (Nat.lt_asymm h)⟩
  exact hl.eq_of_mem_iff hk hmem

/-- What the canonical form says of the cells: addresses from `lo` on and below 65536, words not zero, strictly
rising. -/
theorem cellsFrom_spec {lo : Nat} {m : List MemCell} (h : cellsFrom lo m = true) :
    (∀ c ∈ m, lo ≤ c.1 ∧ c.1 < 65536 ∧ c.2 ≠ 0) ∧ m.Pairwise fun c d => c.1 < d.1 := by
  induction m generalizing lo with
  | nil => exact ⟨nofun, .nil⟩
  | cons c m ih =>
    simp only [cellsFrom, Bool.and_eq_true, decide_eq_true_eq] at h
    obtain ⟨⟨⟨hlo, hbound⟩, hword⟩, hrest⟩ := h
    obtain ⟨hcells, hsorted⟩ := ih hrest
    refine ⟨?_, hsorted.cons fun d hd => (hcells d hd).1⟩
    intro d hd
    rcases List.mem_cons.1 hd with rfl | hd
    · exact ⟨hlo, hbound, hword⟩
    · obtain ⟨hafter, hd⟩ := hcells d hd
      exact ⟨by omega, hd⟩

/-- Where the addresses rise strictly, a listed word is the one read at its address. -/
theorem cellAt_of_mem {m : List MemCell} (hsorted : m.Pairwise fun c d => c.1 < d.1) {c : MemCell} (hc : c ∈ m) :
    cellAt m c.1 = c.2 := by
  induction m with
  | nil => exact absurd hc List.not_mem_nil
  | cons d m ih =>
    obtain ⟨hfirst, hrest⟩ := List.pairwise_cons.1 hsorted
    rw [cellAt]
    rcases List.mem_cons.1 hc with rfl | hc
    · exact if_pos rfl
    · rw [if_neg (Nat.ne_of_lt (hfirst c hc)), ih hrest hc]

/-- A word that reads other than zero is listed. -/
theorem mem_of_cellAt_ne_zero {m : List MemCell} {a : Nat} (h : cellAt m a ≠ 0) : (a, cellAt m a) ∈ m := by
  induction m with
  | nil => exact absurd rfl h
  | cons d m ih =>
    rw [cellAt] at h ⊢
    split at h
    next heq =>
      rw [if_pos heq, ← heq]
      exact List.mem_cons_self
    next hne =>
      rw [if_neg hne]
      exact List.mem_cons_of_mem d (ih h)

/-- A cell of a canonical memory is a cell of every memory that reads alike. -/
theorem Memory.mem_of_read_eq {m n : Memory} (hm : m.wf = true) (hread : ∀ a, m.read a = n.read a) {c : MemCell}
    (hc : c ∈ m) : c ∈ n := by
  obtain ⟨hcells, hsorted⟩ := cellsFrom_spec hm
  obtain ⟨-, hbound, hword⟩ := hcells c hc
  have hsame : cellAt m c.1 = cellAt n c.1 := by
    have haddr : (BitVec.ofNat 16 c.1).toNat = c.1 := Nat.mod_eq_of_lt hbound
    have h := hread (BitVec.ofNat 16 c.1)
    rwa [Memory.read, Memory.read, haddr] at h
  rw [cellAt_of_mem hsorted hc] at hsame
  have hlisted : (c.1, cellAt n c.1) ∈ n := mem_of_cellAt_ne_zero (hsame ▸ hword)
  rwa [← hsame] at hlisted

/-- What the canonical form says of the breakpoint set: members from `lo` on, strictly rising. -/
theorem addrsFrom_spec {lo : Nat} {bs : List Addr} (h : addrsFrom lo bs = true) :
    (∀ b ∈ bs, lo ≤ b.toNat) ∧ bs.Pairwise fun a b => a.toNat < b.toNat := by
  induction bs generalizing lo with
  | nil => exact ⟨nofun, .nil⟩
  | cons b bs ih =>
    simp only [addrsFrom, Bool.and_eq_true, decide_eq_true_eq] at h
    obtain ⟨hlo, hrest⟩ := h
    obtain ⟨hmembers, hsorted⟩ := ih hrest
    refine ⟨?_, hsorted.cons hmembers⟩
    intro a ha
    rcases List.mem_cons.1 ha with rfl | ha
    · exact hlo
    · have := hmembers a ha
      omega

/-- Settles O11: reads determine the cells, and rising order determines how cells and members are listed. -/
theorem canonicalFormsAreUnique : Obligations.CanonicalFormsAreUnique := by
  constructor
  · intro m n hm hn hread
    exact eq_of_mem_iff_of_pairwise_key Prod.fst (cellsFrom_spec hm).2 (cellsFrom_spec hn).2 fun _ =>
      ⟨Memory.mem_of_read_eq hm hread, Memory.mem_of_read_eq hn fun a => (hread a).symm⟩
  · intro p q hp hq hmembers
    exact eq_of_mem_iff_of_pairwise_key BitVec.toNat (addrsFrom_spec hp).2 (addrsFrom_spec hq).2 hmembers

end Sys2Proof.Machine
end
